-- ==== Sys2Proof/Word.lean ====
section
/-! DEFINITION. The two widths of the block: bytes and the 16-bit length and count (00_scope.md R12, R15). -/

namespace Sys2Proof

/-- A byte, unsigned, bit 7 most significant (R15). -/
abbrev Byte := BitVec 8

/-- A 16-bit unsigned quantity: the frame length, `expected_len`, `count` (R12). -/
abbrev Half := BitVec 16

end Sys2Proof
end

