-- ==== Sys2Proof/Config.lean ====
section
/-! DEFINITION. The static parameters of an instance of the block (00_scope.md section 3): the configuration argument of every
rule. The open ones are fields, so that a statement holds for every value; the fixed ones are definitions. -/

namespace Sys2Proof

/-- `PROTOCOL_REV` (R9): which of the two evidenced revisions the instance implements. -/
inductive ProtocolRev where
  | v1
  | v2
deriving DecidableEq, Repr

/-- The OPEN parameters (R8 to R10), fixed when the block is built and never changed while it runs (R35, R254). -/
structure Config where
  /-- `MAX_FRAME_LEN`: the largest accepted payload length and the capacity of the buffer, in bytes (R8). -/
  maxFrameLen : Nat
  /-- `T_REASM`: the reassembly timeout in ticks (R10). -/
  tReasm : Nat
  /-- `PROTOCOL_REV` (R9). -/
  protocolRev : ProtocolRev
  /-- `TICK_PERIOD`: the real time of a tick, read by no rule (R10). DESIGN CHOICE (log 23, safe): in microseconds. -/
  tickPeriodUs : Nat
deriving DecidableEq, Repr

/-- `LEN_BYTES` (R7): bytes in the length header, fixed. -/
def Config.lenBytes : Nat := 2

/-- The legal range of each parameter: `2 <= MAX_FRAME_LEN <= 65535` (R8) and `T_REASM >= 1` (R10). -/
abbrev Config.Valid (c : Config) : Prop :=
  2 ≤ c.maxFrameLen ∧ c.maxFrameLen ≤ 65535 ∧ 1 ≤ c.tReasm

/-- The example configuration of 95_test_vectors.md: `MAX_FRAME_LEN = 64`, `T_REASM = 100`, `PROTOCOL_REV = V1`,
`TICK_PERIOD` = 1 ms. DESIGN CHOICE (log 1, unsafe): the reset state is an instance of this configuration. -/
def Config.specExample : Config :=
  { maxFrameLen := 64, tReasm := 100, protocolRev := .v1, tickPeriodUs := 1000 }

end Sys2Proof
end

