-- ==== Sys2Proof/Machine/Operands.lean ====
section
/-! DEFINITION. The fields of a frame (30_encoding.md sections 1 and 2): assembling and splitting the length, serialising a
payload, and laying a table number out as the bytes of the wire. -/

namespace Sys2Proof.Machine

/-- `L <- zext_16(len_hi) * 256 + zext_16(len_lo)` (30_encoding.md R74, 20_memory.md R56): big-endian, unsigned. -/
def lengthOf (hi lo : Byte) : Half := hi.setWidth 16 * 256 + lo.setWidth 16

/-- `n[15:8]` of a payload length (43_serial_frame_encoder.md R171). -/
def lenHiOf (n : Nat) : Byte := BitVec.ofNat 8 (n / 256)

/-- `n[7:0]` of a payload length (R171). -/
def lenLoOf (n : Nat) : Byte := BitVec.ofNat 8 n

/-- `Encode(q)` (R170): the two length bytes, high byte first, and the payload verbatim. -/
def encodeFrame (q : List Byte) : List Byte := lenHiOf q.length :: lenLoOf q.length :: q

/-- The `n` bytes of a number, byte 0 most significant, as the table writes a frame (30_encoding.md R72, R79). -/
def bytesOfNumber : Nat → Nat → List Byte
  | 0, _ => []
  | n + 1, w => BitVec.ofNat 8 (w / 256 ^ n) :: bytesOfNumber n w

/-- The request payload of the one entry of `DISPATCH_TABLE` (00_scope.md R11), the PING. -/
def pingPayload : List Byte := [0x08, 0x01]

end Sys2Proof.Machine
end

