-- ==== Sys2Proof/Syntax.lean ====
section
/-! DEFINITION. The instructions of the block: the rows of the frame map and of the byte classes (30_encoding.md R77, R78), with
the resting states that select a byte class and the direction of each row. -/

namespace Sys2Proof

/-- The resting states of the decoder (10_state.md R21). Their binary encoding is left free (R23). -/
inductive RestingState where
  | idle
  | hdr
  | accum
deriving DecidableEq, Repr

/-- The rows of opcode_table.json, one constructor each. A byte class is what ONE byte is to the decoder; a frame row is
what a header or a whole frame is to the block at the moment it is decided (R77, column "decided at"). -/
inductive Instr where
  /-- `PING`, `00 02 08 01`, received. -/
  | ping
  /-- `PONG_V1`, `00 02 08 02`, sent. -/
  | pongV1
  /-- `PONG_V2`, `00 04 08 02 10 01`, sent. -/
  | pongV2
  /-- `EMPTY`, `00 00`, received. -/
  | empty
  /-- `OVERSIZE`, a header alone, received; `len` is `L`. -/
  | oversize (len : Half)
  /-- `UNKNOWN`, received: every other accepted frame; `L` is the payload's length. -/
  | unknown (payload : List Byte)
  /-- `HDR_HI`: a byte received in IDLE. -/
  | hdrHi (b : Byte)
  /-- `HDR_LO`: a byte received in HDR. -/
  | hdrLo (b : Byte)
  /-- `PAYLOAD`: a byte received in ACCUM. -/
  | payload (b : Byte)
deriving DecidableEq, Repr

/-- What the decoder is reading: one byte in a resting state (R78), a whole received frame, or a frame of the `tx` stream
(R77, column "direction"). -/
inductive View where
  | byteIn (st : RestingState)
  | received
  | sent
deriving DecidableEq, Repr

/-- The view in which each row occurs (R77 column "direction", R78 column "state before"). -/
def Instr.view : Instr → View
  | .ping => .received
  | .pongV1 => .sent
  | .pongV2 => .sent
  | .empty => .received
  | .oversize _ => .received
  | .unknown _ => .received
  | .hdrHi _ => .byteIn .idle
  | .hdrLo _ => .byteIn .hdr
  | .payload _ => .byteIn .accum

end Sys2Proof
end

