-- ==== Sys2Proof/WellFormed.lean ====
section
/-! DEFINITION. The condition column of the frame map (30_encoding.md R77) as a check on an instruction for a configuration. -/

namespace Sys2Proof

/-- The condition of each row of the table (R77, R78): a byte class takes any byte. -/
def Instr.wf (c : Config) : Instr → Bool
  | .ping => decide (2 ≤ c.maxFrameLen)
  | .pongV1 => decide (c.protocolRev = .v1)
  | .pongV2 => decide (c.protocolRev = .v2)
  | .empty => true
  | .oversize len => decide (c.maxFrameLen < len.toNat)
  | .unknown p => decide (1 ≤ p.length) && decide (p.length ≤ c.maxFrameLen) && decide (p ≠ Machine.pingPayload)
  | .hdrHi _ => true
  | .hdrLo _ => true
  | .payload _ => true

end Sys2Proof
end

