-- ==== Sys2Proof/Decode.lean ====
section
/-! DEFINITION. The decoder of the frame map and of the byte classes (30_encoding.md R77 to R80), total on any bytes, and after it
the encoder. The machine itself decodes byte by byte (`decodeByte`); whole frames are what its bytes add up to. -/

namespace Sys2Proof

open Machine (lengthOf encodeFrame bytesOfNumber pingPayload)

/-- Why a list of bytes is not (yet) an instruction. The block rejects no byte: these say what is missing. -/
inductive DecodeError where
  /-- Fewer than two bytes: the header is not complete. -/
  | shortHeader
  /-- Fewer than `L` bytes after the header: the frame is not complete (`TRUNCATED` if the deadline passes). -/
  | shortPayload
  /-- Bytes of the `tx` stream that are no PONG (R175). -/
  | notAResponse
  /-- No byte at all where a byte class is asked for. -/
  | noByte
deriving DecidableEq, Repr

/-- The byte class of a byte in a resting state (R78). No byte value is special in any state. -/
def decodeByte (st : RestingState) (b : Byte) : Instr :=
  match st with
  | .idle => .hdrHi b
  | .hdr => .hdrLo b
  | .accum => .payload b

/-- The frame at the head of a received byte list and the bytes after it, tested in the order OVERSIZE, EMPTY, PING,
UNKNOWN (R77, R79). An oversized header stands alone: no byte after it belongs to it (R84). -/
def decodeReceived (c : Config) : List Byte → Except DecodeError (Instr × List Byte)
  | hi :: lo :: rest =>
    let len := lengthOf hi lo
    if c.maxFrameLen < len.toNat then .ok (.oversize len, rest)
    else if len = 0 then .ok (.empty, rest)
    else if rest.length < len.toNat then .error .shortPayload
    else if rest.take len.toNat = pingPayload then .ok (.ping, rest.drop len.toNat)
    else .ok (.unknown (rest.take len.toNat), rest.drop len.toNat)
  | _ => .error .shortHeader

/-- The response frame at the head of a `tx` byte list (R77, rows PONG_V1 and PONG_V2). -/
def decodeSent : List Byte → Except DecodeError (Instr × List Byte)
  | 0x00#8 :: 0x02#8 :: 0x08#8 :: 0x02#8 :: rest => .ok (.pongV1, rest)
  | 0x00#8 :: 0x04#8 :: 0x08#8 :: 0x02#8 :: 0x10#8 :: 0x01#8 :: rest => .ok (.pongV2, rest)
  | _ => .error .notAResponse

/-- The instruction at the head of a byte list in a view, and the bytes after it. -/
def decode (c : Config) (v : View) (bytes : List Byte) : Except DecodeError (Instr × List Byte) :=
  match v with
  | .byteIn st =>
    match bytes with
    | b :: rest => .ok (decodeByte st b, rest)
    | [] => .error .noByte
  | .received => decodeReceived c bytes
  | .sent => decodeSent bytes

/-- The bytes of an instruction on the wire, from the pattern column of R77 and R78. -/
def encode : Instr → List Byte
  | .ping => [0x00, 0x02, 0x08, 0x01]
  | .pongV1 => [0x00, 0x02, 0x08, 0x02]
  | .pongV2 => [0x00, 0x04, 0x08, 0x02, 0x10, 0x01]
  | .empty => [0x00, 0x00]
  | .oversize len => [Machine.lenHiOf len.toNat, Machine.lenLoOf len.toNat]
  | .unknown p => encodeFrame p
  | .hdrHi b => [b]
  | .hdrLo b => [b]
  | .payload b => [b]

/-- The instruction of a word of the opcode table for a configuration. The table writes a frame as ONE number with byte 0 most
significant (R72, R79), so the bytes are laid out in that order; every byte the frame has after them is `00`. DEDUCED
(log 11, safe): the two sent rows are whole fixed patterns and are read in the sent direction, every other frame as a
received one; one byte alone is read in IDLE, the state after reset, so it is HDR_HI. -/
def decodeTableWordFor (c : Config) (nbits w : Nat) : Option Instr :=
  if nbits % 8 ≠ 0 then none
  else
    let bytes := bytesOfNumber (nbits / 8) (w % 2 ^ nbits)
    if bytes = encode .pongV1 then some .pongV1
    else if bytes = encode .pongV2 then some .pongV2
    else match bytes with
      | [] => none
      | [b] => some (decodeByte .idle b)
      | _ =>
        match decodeReceived c (bytes ++ List.replicate c.maxFrameLen 0x00) with
        | .ok (i, _) => some i
        | .error _ => none

/-- The instruction of a word of the opcode table, for the configuration the reset state has (log 1, log 11). -/
def decodeTableWord (nbits w : Nat) : Option Instr :=
  decodeTableWordFor Config.specExample nbits w

end Sys2Proof
end

