-- ==== Sys2Proof/Machine/State.lean ====
section
/-! DEFINITION. The state of the block (10_state.md R20), the events its environment sends it (00_scope.md R13), and the reasons
a step of the model can stop. -/

namespace Sys2Proof.Machine

/-- The reassembly buffer `buf` (R29, 20_memory.md R50): the bytes of the frame in flight stored so far, by strictly rising
index. An index not listed is absent and holds no value: unwritten and discarded bytes are absent, not values
(41_reassembly_buffer.md R135; log 6). -/
abbrev Memory := List Host.Cell

/-- The canonical form of a buffer: indices strictly rising (so that equal buffers are equal lists). -/
abbrev Memory.wf (m : Memory) : Prop := m.Pairwise (fun x y => x.1 < y.1)

/-- An input event (00_scope.md R13, 45_engine_operations.md R200). -/
inductive Event where
  /-- `RESET`, the document's "start empty". -/
  | reset
  /-- `RX(b, now)`: one byte arrives. -/
  | rx (b : Byte) (now : Nat)
  /-- `CHUNK(bs, now)`: the bytes of one physical read arrive together. -/
  | chunk (bs : List Byte) (now : Nat)
  /-- `TICK(now)`: time has reached `now` and no byte arrives. -/
  | tick (now : Nat)
deriving DecidableEq, Repr

/-- The cause label of a discard (60_exceptions.md R225). The hardware has no cause code (R224). -/
inductive Cause where
  | truncated
  | oversize
deriving DecidableEq, Repr

/-- An entry of the ghost log that 60_exceptions.md R224 allows a model to keep. -/
inductive TraceEntry where
  /-- `raise Discard(cause)` (R225). -/
  | discard (c : Cause)
  /-- A frame completed with this payload (40_serial_frame_decoder.md R108). -/
  | complete (payload : List Byte)
  /-- `drop(UNKNOWN)`: the dispatcher returned `None` (R223). -/
  | unknown
deriving DecidableEq, Repr

/-- The state: the registers of R20 under the spec's names, the output `tx`, the static parameters, and the model's own
`now`, `input` and `ghost`. -/
structure State where
  /-- The static parameters (00_scope.md section 3). No step changes them. DESIGN CHOICE (log 1): carried in State. -/
  cfg : Config
  /-- `st`, the decoder state register (R21). -/
  st : RestingState
  /-- `len_hi` (R24). -/
  lenHi : Byte
  /-- `expected_len` (R25). -/
  expectedLen : Half
  /-- `count` (R26): the document's `buffered_so_far`, and the write index of the buffer. -/
  count : Half
  /-- `buf` (R29). -/
  buf : Memory
  /-- `deadline` (R31), a natural number (R12). -/
  deadline : Nat
  /-- `tx` (R33): every byte written to the serial stream since the last RESET. -/
  tx : List Byte
  /-- MODEL's own: the reading of the clock input in the current event (R32: an input, not state of the block). DESIGN
  CHOICE (log 3, safe). -/
  now : Nat
  /-- MODEL's own: the events the environment will still send, the next one first. DESIGN CHOICE (log 2, safe). -/
  input : List Event
  /-- MODEL's own: the ghost log since the last RESET (R224). No operation reads it. DESIGN CHOICE (log 7, safe). -/
  ghost : List TraceEntry
deriving DecidableEq, Repr

/-- Why a step stops. No state that a run reaches raises either (45_engine_operations.md R206); both are accesses to
`buf` the spec calls not defined. -/
inductive Fault where
  /-- Raised by PAYLOAD in `memWrite`: a write at an index not below `MAX_FRAME_LEN` (00_scope.md R16, 20_memory.md R52).
  Safe (log 21): the model stops where the spec defines nothing. -/
  | bufWriteUndefined (index : Nat)
  /-- Raised by PAYLOAD in `memRead`: a read of `n` bytes at `addr` that are not all below `count` and written (R16, R53).
  Safe (log 21): the model stops where the spec defines nothing. -/
  | bufReadUndefined (addr n : Nat)
deriving DecidableEq, Repr

/-- Why the model has no answer. Nothing of this model is refused: every event in every state has an outcome of its own. -/
inductive Refusal where
  /-- Raised only by an arm of `exec` whose instruction has no meaning yet; safe. No arm is left so. -/
  | notModelled (mnemonic : String)
deriving DecidableEq, Repr

/-- The outcome of an event or an instruction. -/
abbrev Result := Host.Outcome State Fault Refusal

/-- The state right after RESET of an instance built with the parameters `c` (R38, 70_reset_and_hazards.md R250): `st` is
IDLE and `tx` is empty. The spec leaves every other register unspecified: DESIGN CHOICE (log 4, unsafe) `len_hi`,
`expected_len`, `count` and `deadline` are 0; every byte of `buf` is absent (log 6). -/
def State.resetWith (c : Config) : State :=
  { cfg := c, st := .idle, lenHi := 0, expectedLen := 0, count := 0, buf := [], deadline := 0, tx := [], now := 0,
    input := [], ghost := [] }

/-- The machine right after reset, an instance of the spec's example configuration (log 1). -/
def State.reset : State := State.resetWith Config.specExample

end Sys2Proof.Machine
end

