-- ==== Sys2Proof/Machine/Flags.lean ====
section
/-! DEFINITION. The conditions the rules test. The block stores no flag: each is computed inside one event from the registers
and the event's inputs (10_state.md R34). -/

namespace Sys2Proof.Machine

/-- `armed`: `st != IDLE` (R31, R34). There is no separate armed flag. -/
def State.armed (s : State) : Bool := decide (s.st ≠ .idle)

/-- `expired`: `armed and now >= deadline` (R34, 44_recovery_policy.md R187). In IDLE `deadline` is not read. -/
def State.expired (s : State) : Bool := s.armed && decide (s.deadline ≤ s.now)

/-- `oversize`: `L > MAX_FRAME_LEN` at header completion (R34, 40_serial_frame_decoder.md R102). -/
def oversizeLen (c : Config) (len : Half) : Bool := decide (c.maxFrameLen < len.toNat)

/-- `zero_len`: `L = 0` at header completion (R34, R102). -/
def zeroLen (len : Half) : Bool := decide (len = 0)

/-- `complete`: `count = expected_len` after a payload byte is stored (R34, R106). -/
def State.payloadComplete (s : State) : Bool := decide (s.count = s.expectedLen)

/-- `recognised`: the payload equals the request of `DISPATCH_TABLE` (R34, 42_frame_dispatcher.md R150). The length is tested
first, so `p[0]` and `p[1]` are looked at only where they exist. -/
def recognised (p : List Byte) : Bool :=
  match p with
  | [t, r] => decide (t = 0x08) && decide (r = 0x01)
  | _ => false

end Sys2Proof.Machine
end

