-- ==== Sys2Proof/Machine/Ops.lean ====
section
/-! DEFINITION. The named operations of the rules: the buffer (41_reassembly_buffer.md), the dispatcher (42), the encoder and
emission (43), the deadline (44), the discard sequence that stands in for taking an exception (60), completion (40). There is
no return from a discard and nothing to restore (60_exceptions.md R227). -/

namespace Sys2Proof.Machine

/-! ## The buffer as memory -/

/-- The byte at an index, if one has been written there. -/
def Memory.read (m : Memory) (a : Nat) : Option Byte :=
  match m with
  | [] => none
  | c :: m' => if c.1 = a then some c.2 else Memory.read m' a

/-- The buffer with the byte `b` at index `a`; indices stay in rising order. -/
def Memory.write (m : Memory) (a : Nat) (b : Byte) : Memory :=
  match m with
  | [] => [(a, b)]
  | c :: m' =>
    if a < c.1 then (a, b) :: c :: m'
    else if a = c.1 then (a, b) :: m'
    else c :: Memory.write m' a b

/-- The `n` bytes from index `a` in index order, if all of them have been written. -/
def Memory.readRange (m : Memory) (a : Nat) : Nat → Option (List Byte)
  | 0 => some []
  | n + 1 =>
    match Memory.read m a, Memory.readRange m (a + 1) n with
    | some b, some bs => some (b :: bs)
    | _, _ => none

/-- Continue with the next state; a fault or a refusal ends the event. -/
def andThen (o : Result) (f : State → Result) : Result :=
  match o with
  | .next s => f s
  | .fault r => .fault r
  | .refused r => .refused r

/-- `MemWrite(addr, 1, v)` (00_scope.md R16, 20_memory.md R52): defined only below `MAX_FRAME_LEN`. -/
def memWrite (a : Nat) (b : Byte) (s : State) : Result :=
  if a < s.cfg.maxFrameLen then .next { s with buf := s.buf.write a b } else .fault (.bufWriteUndefined a)

/-- `MemRead(addr, n)` (R16, R53): defined only when `addr + n <= count`; a byte nothing has written has no value. -/
def memRead (a n : Nat) (s : State) : Except Fault (List Byte) :=
  if a + n ≤ s.count.toNat then
    match s.buf.readRange a n with
    | some bs => .ok bs
    | none => .error (.bufReadUndefined a n)
  else .error (.bufReadUndefined a n)

/-- The index PAYLOAD stores to: `count`, before the increment (R131). -/
def storeIndex (s : State) : Nat := s.count.toNat

/-- `APPEND` (R131): `buf[count] <- b`. -/
def append (b : Byte) (s : State) : Result := memWrite (storeIndex s) b s

/-- `count <- count + 1` (40_serial_frame_decoder.md R106). -/
def State.bumpCount (s : State) : State := { s with count := s.count + 1 }

/-- `TAKE` (R133): the complete payload, `MemRead(0, expected_len)`. -/
def take (s : State) : Except Fault (List Byte) := memRead 0 s.expectedLen.toNat s

/-! ## The clock input, the ghost log and the output -/

/-- Sample the clock input at the start of an event (10_state.md R32; log 3). -/
def State.sample (s : State) (t : Nat) : State := { s with now := t }

/-- Tag the trace (60_exceptions.md R224; log 7). -/
def State.note (s : State) (e : TraceEntry) : State := { s with ghost := s.ghost ++ [e] }

/-- `emit(s)`: `tx <- tx ++ s` (R16, 43_serial_frame_encoder.md R173). It cannot fail, block or be cut short. -/
def State.emit (s : State) (bytes : List Byte) : State := { s with tx := s.tx ++ bytes }

/-! ## Return to IDLE, discard and the deadline -/

/-- `st <- IDLE`, the end of a frame (R108, R225, R250). No rule clears `buf`: its bytes mean nothing outside ACCUM, and the
model represents them as absent (41_reassembly_buffer.md R135; log 6). `len_hi`, `expected_len`, `count` and `deadline` become
unspecified too and keep their values: DESIGN CHOICE (log 5, unsafe). -/
def State.returnToIdle (s : State) : State := { s with st := .idle, buf := [] }

/-- `raise Discard(cause)` (R225): the whole effect is `st <- IDLE`. Nothing is saved, nothing is emitted, no other register
is written. The discarded bytes of `buf` are absent from then on (R134, R135). -/
def State.discard (s : State) (c : Cause) : State := (s.note (.discard c)).returnToIdle

/-- `ARM` (44_recovery_policy.md R186): `deadline <- now + T_REASM`. -/
def State.arm (s : State) : State := { s with deadline := s.now + s.cfg.tReasm }

/-- `CHECK` and `EXPIRE` (R187, R188): an armed deadline that the clock has reached discards the partial frame. -/
def State.checkDeadline (s : State) : State := if s.expired then s.discard .truncated else s

/-! ## Dispatch and completion -/

/-- The response payload of the one entry of `DISPATCH_TABLE` (00_scope.md R11; 42_frame_dispatcher.md R151, R152). -/
def pongPayload (r : ProtocolRev) : List Byte :=
  match r with
  | .v1 => [0x08, 0x02]
  | .v2 => [0x08, 0x02, 0x10, 0x01]

/-- `Dispatch(p)` (R150): pure and total, a function of the payload and the revision alone. -/
def dispatch (c : Config) (p : List Byte) : Option (List Byte) :=
  if recognised p then some (pongPayload c.protocolRev) else none

/-- Completion (40_serial_frame_decoder.md R108): dispatch, emit the encoded response if there is one, `st <- IDLE`. The frame is
gone from `buf`, "once dispatched it is discarded" (41_reassembly_buffer.md R134). -/
def State.completeFrame (s : State) (p : List Byte) : State :=
  match dispatch s.cfg p with
  | some q => ((s.note (.complete p)).emit (encodeFrame q)).returnToIdle
  | none => ((s.note (.complete p)).note .unknown).returnToIdle

/-- Start of accumulation (R105). `buf` is not cleared and `deadline` keeps its value. `len_hi` is unspecified outside HDR
(10_state.md R24): that it keeps its value here is a DESIGN CHOICE (log 5, unsafe). -/
def State.startAccum (s : State) (len : Half) : State := { s with expectedLen := len, count := 0, st := .accum }

/-- `RESET` (70_reset_and_hazards.md R250): `st <- IDLE`, the trace starts again (log 8). A frame in flight is dropped without
being classified. -/
def State.restart (s : State) : State := { s.returnToIdle with tx := [], ghost := [] }

end Sys2Proof.Machine
end

