-- ==== Sys2Proof/Machine/Frames.lean ====
section
/-! DEFINITION. The received frame rows of the table (30_encoding.md R77): what the block does at the moment the frame is
decided. DEDUCED (log 9, safe): the meaning of a frame row is the row's action at that moment, the second header byte or the
last payload byte; the bytes before it are the byte classes' business. -/

namespace Sys2Proof.Machine

/-- `PING` (42_frame_dispatcher.md R150): completion (R108) with the payload `08 01`; the PONG of the configured revision. -/
def execPing (s : State) : Result := .next (s.completeFrame pingPayload)

/-- `EMPTY` (40_serial_frame_decoder.md R103): completion with the empty payload, which the dispatcher does not recognise
(R154). -/
def execEmpty (s : State) : Result := .next (s.completeFrame [])

/-- `OVERSIZE` (R104): discard at once, whatever the length; no byte is skipped, nothing is emitted. -/
def execOversize (_len : Half) (s : State) : Result := .next (s.discard .oversize)

/-- `UNKNOWN` (R153): completion (R108) with a payload the dispatcher does not recognise. -/
def execUnknown (p : List Byte) (s : State) : Result := .next (s.completeFrame p)

end Sys2Proof.Machine
end

