-- ==== Sys2Proof/Machine/Bytes.lean ====
section
/-! DEFINITION. The byte classes of the decoder (40_serial_frame_decoder.md): what the block does with one RX byte after the
deadline check. The class was selected by `st` (R100), so a meaning does not test `st` again (log 9). -/

namespace Sys2Proof.Machine

/-- `HDR_HI` (R101): hold the first length byte, arm the deadline, go to HDR. -/
def execHdrHi (b : Byte) (s : State) : Result := .next { { s with lenHi := b }.arm with st := .hdr }

/-- `HDR_LO` (R102): form `L`; oversize first (R104), then the zero-length frame (R103), else start accumulating (R105). -/
def execHdrLo (b : Byte) (s : State) : Result :=
  let len := lengthOf s.lenHi b
  if oversizeLen s.cfg len then execOversize len s
  else if zeroLen len then execEmpty s
  else .next (s.startAccum len)

/-- The last payload byte (R107): the whole payload goes to completion in the same event. -/
def finishPayload (s : State) : Result :=
  match take s with
  | .ok p => .next (s.completeFrame p)
  | .error f => .fault f

/-- `PAYLOAD` (R106): store the byte, count it, and complete the frame when the count reaches `expected_len`. -/
def execPayload (b : Byte) (s : State) : Result :=
  andThen (append b s) fun s1 =>
    if s1.bumpCount.payloadComplete then finishPayload s1.bumpCount else .next s1.bumpCount

end Sys2Proof.Machine
end

