-- ==== Sys2Proof/Machine/Responses.lean ====
section
/-! DEFINITION. The sent frame rows of the table (30_encoding.md R77): `EMIT` (43_serial_frame_encoder.md R173) of the one frame
the configured revision answers with. DEDUCED (log 10, safe): a sent row's meaning is its action, "appended to tx"; the same
bytes received are an UNKNOWN frame. -/

namespace Sys2Proof.Machine

/-- `PONG_V1` (R151): `00 02 08 02` is appended to `tx`. -/
def execPongV1 (s : State) : Result := .next (s.emit (encodeFrame (pongPayload .v1)))

/-- `PONG_V2` (R152): `00 04 08 02 10 01` is appended to `tx`. -/
def execPongV2 (s : State) : Result := .next (s.emit (encodeFrame (pongPayload .v2)))

end Sys2Proof.Machine
end

