-- ==== Sys2Proof/Machine/Dispatch.lean ====
section
/-! DEFINITION. The meaning of every instruction: one arm per row of the opcode table. -/

namespace Sys2Proof.Machine

def exec (i : Instr) (s : State) : Host.Outcome State Fault Refusal :=
  match i with
  | .ping => Sys2Proof.Machine.execPing s
  | .pongV1 => Sys2Proof.Machine.execPongV1 s
  | .pongV2 => Sys2Proof.Machine.execPongV2 s
  | .empty => Sys2Proof.Machine.execEmpty s
  | .oversize len => Sys2Proof.Machine.execOversize len s
  | .unknown p => Sys2Proof.Machine.execUnknown p s
  | .hdrHi b => Sys2Proof.Machine.execHdrHi b s
  | .hdrLo b => Sys2Proof.Machine.execHdrLo b s
  | .payload b => Sys2Proof.Machine.execPayload b s

end Sys2Proof.Machine
end

