-- ==== Sys2Proof/Machine/Events.lean ====
section
/-! DEFINITION. The four operations of the environment on the block (45_engine_operations.md R200): RX, CHUNK, TICK, RESET. Each
is one atomic step (00_scope.md R17). -/

namespace Sys2Proof.Machine

/-- `RX(b, now)` once the clock is sampled (R202, 40_serial_frame_decoder.md R100): first the deadline check, which may set
`st <- IDLE`; then the byte, classified by the state after the check. -/
def rxByte (b : Byte) (s : State) : Result := exec (decodeByte s.checkDeadline.st b) s.checkDeadline

/-- The bytes of a chunk in order, all at the same time (R203). -/
def rxBytes : List Byte → State → Result
  | [], s => .next s
  | b :: bs, s => andThen (rxByte b s) (rxBytes bs)

/-- `TICK(now)` once the clock is sampled (44_recovery_policy.md R189): the deadline check and nothing else. -/
def runTick (s : State) : Result := .next s.checkDeadline

/-- `CHUNK(bs, now)` once the clock is sampled (R203); the empty chunk is a TICK (R204). -/
def runChunk (bs : List Byte) (s : State) : Result :=
  match bs with
  | [] => runTick s
  | _ :: _ => rxBytes bs s

/-- One event (R200). RESET carries no time. -/
def runEvent (e : Event) (s : State) : Result :=
  match e with
  | .reset => .next s.restart
  | .rx b t => rxByte b (s.sample t)
  | .chunk bs t => runChunk bs (s.sample t)
  | .tick t => runTick (s.sample t)

/-- Take the next event of the environment and run it. With no event pending the block waits (60_exceptions.md R241). -/
def runNext (s : State) : Result :=
  match s.input with
  | [] => .next s
  | e :: es => runEvent e { s with input := es }

/-- Put the bytes of an instruction where the next step takes its input: as the next event, in IDLE, at the current time. One
byte is an RX event, several are the CHUNK of one physical read. -/
def State.offer (s : State) (bytes : List Byte) : State :=
  { s.returnToIdle with
    input := (match bytes with
      | [b] => Event.rx b s.now
      | bs => Event.chunk bs s.now) :: s.input }

/-- The state whose next event delivers the instruction of a table word (log 12). A sent frame runs when a PING completes in an
instance of its revision, so for it the next event is a PING and the revision is the frame's own. -/
def State.offerTableWord (s : State) (nbits w : Nat) : State :=
  match decodeTableWordFor s.cfg nbits w with
  | some .pongV1 => { s with cfg := { s.cfg with protocolRev := .v1 } }.offer (encode .ping)
  | some .pongV2 => { s with cfg := { s.cfg with protocolRev := .v2 } }.offer (encode .ping)
  | some i => s.offer (encode i)
  | none => s.offer (bytesOfNumber (nbits / 8) (w % 2 ^ nbits))

end Sys2Proof.Machine
end

