-- ==== Sys2Proof/Machine/Step.lean ====
section
/-! DEFINITION. One step of the machine: one event of its environment (45_engine_operations.md R206). -/

namespace Sys2Proof.Machine

/-- One step: the next pending event, as one atomic step (00_scope.md R17). -/
def step (s : State) : Host.Outcome State Fault Refusal := runNext s

/-- The state whose next step fetches and runs the instruction of a table word: the model fetches from the list of pending
events, so the instruction's bytes become its first entry (log 12). -/
def State.withFetchWord (s : State) (nbits w : Nat) : State := s.offerTableWord nbits w

end Sys2Proof.Machine
end

