-- ==== Sys2Proof/Safety.lean ====
section
/-! DEFINITION. The terms claims use: what a run is, what a state of a run satisfies, which registers mean something, and what
the environment owes the block. -/

namespace Sys2Proof.Machine

/-! ## What events carry -/

/-- The bytes an event delivers. -/
def Event.bytes : Event → List Byte
  | .reset => []
  | .rx b _ => [b]
  | .chunk bs _ => bs
  | .tick _ => []

/-- The bytes a list of events delivers, in order. -/
def bytesOf (evs : List Event) : List Byte := evs.flatMap Event.bytes

/-- The event carries a clock reading, and it lies in `lo ≤ t < hi`. RESET carries none. -/
def Event.within (lo hi : Nat) : Event → Bool
  | .reset => false
  | .rx _ t => decide (lo ≤ t) && decide (t < hi)
  | .chunk _ t => decide (lo ≤ t) && decide (t < hi)
  | .tick t => decide (lo ≤ t) && decide (t < hi)

/-- The event is a TICK. -/
def Event.isTick : Event → Bool
  | .tick _ => true
  | _ => false

/-- The event is an RX. -/
def Event.isRx : Event → Bool
  | .rx _ _ => true
  | _ => false

/-- The clock is monotonic (70_reset_and_hazards.md R255): no event's reading is below `t` or below an earlier one. -/
def monotoneFrom : Nat → List Event → Prop
  | _, [] => True
  | t, .reset :: evs => monotoneFrom t evs
  | t, .rx _ n :: evs => t ≤ n ∧ monotoneFrom n evs
  | t, .chunk _ n :: evs => t ≤ n ∧ monotoneFrom n evs
  | t, .tick n :: evs => t ≤ n ∧ monotoneFrom n evs

/-! ## Runs -/

/-- `n` steps, stopping at the first fault or refusal. -/
def runFor : Nat → State → Result
  | 0, s => .next s
  | n + 1, s => andThen (step s) (runFor n)

/-- The machine's steps through all of `evs`, from `s` (45_engine_operations.md R201): one step an event. -/
def runAll (evs : List Event) (s : State) : Result := runFor evs.length { s with input := evs }

/-! ## What a frame does to the outside -/

/-- The bytes a complete frame with payload `p` adds to `tx`: the encoded response, or nothing (R108). -/
def responseTo (c : Config) (p : List Byte) : List Byte :=
  match dispatch c p with
  | some q => encodeFrame q
  | none => []

/-- What the ghost log says of a complete frame with payload `p`: one completion, and `UNKNOWN` if it was dropped (R223). -/
def completionEntries (c : Config) (p : List Byte) : List TraceEntry :=
  match dispatch c p with
  | some _ => [.complete p]
  | none => [.complete p, .unknown]

/-- The PONG of a revision as a frame (43_serial_frame_encoder.md R175). -/
def pongFrame (r : ProtocolRev) : List Byte :=
  match r with
  | .v1 => [0x00, 0x02, 0x08, 0x02]
  | .v2 => [0x00, 0x04, 0x08, 0x02, 0x10, 0x01]

/-- The number of PING frames completed since RESET, read off the ghost log. -/
def State.pings (s : State) : Nat := s.ghost.count (.complete pingPayload)

/-- The number of discards since RESET, read off the ghost log. -/
def State.discards (s : State) : Nat :=
  s.ghost.count (.discard .truncated) + s.ghost.count (.discard .oversize)

/-- The buffer with a list of bytes from index `a` on. -/
def Memory.writeRange (m : Memory) (a : Nat) : List Byte → Memory
  | [] => m
  | b :: bs => Memory.writeRange (Memory.write m a b) (a + 1) bs

/-- The bytes of a chunk with no deadline check of their own: the other form of a chunk that 45_engine_operations.md R203
says a model may use, with ONE check before the first byte. -/
def rxUnchecked : List Byte → State → Result
  | [], s => .next s
  | b :: bs, s => andThen (exec (decodeByte s.st b) s) (rxUnchecked bs)

/-- The state in which a received frame row is decided, when the frame's bytes arrive together at time `n` in IDLE: after the
first header byte for a row decided at the header, with the whole payload in the buffer for a row decided at the last payload
byte (30_encoding.md R77, column "decided at"). -/
def State.receiving (s : State) (n : Nat) (i : Instr) : State :=
  let held (len : Nat) : State := { s with now := n, lenHi := lenHiOf len, deadline := n + s.cfg.tReasm, st := .hdr }
  let filled (p : List Byte) : State :=
    { held p.length with
      expectedLen := BitVec.ofNat 16 p.length
      count := BitVec.ofNat 16 p.length
      buf := Memory.writeRange s.buf 0 p
      st := .accum }
  match i with
  | .oversize len => held len.toNat
  | .empty => held 0
  | .ping => filled pingPayload
  | .unknown p => filled p
  | _ => s

/-! ## What a state of a run satisfies -/

/-- The invariant of every state between events: legal parameters (R8, R10); the buffer canonical and inside its capacity
(20_memory.md R50); while `st = ACCUM`, `1 <= expected_len <= MAX_FRAME_LEN`, `count < expected_len` (10_state.md R27) and the
first `count` bytes of the buffer written (R29); every other byte of the buffer, and outside ACCUM every byte, absent
(41_reassembly_buffer.md R135, R137); an armed deadline still ahead of the last event's time (44_recovery_policy.md R191). -/
structure State.Inv (s : State) : Prop where
  valid : s.cfg.Valid
  bufWf : s.buf.wf
  bufBound : ∀ c ∈ s.buf, c.1 < s.cfg.maxFrameLen
  lenPos : s.st = .accum → 1 ≤ s.expectedLen.toNat
  lenMax : s.st = .accum → s.expectedLen.toNat ≤ s.cfg.maxFrameLen
  counting : s.st = .accum → s.count.toNat < s.expectedLen.toNat
  buffered : s.st = .accum → ∀ a, a < s.count.toNat → (s.buf.read a).isSome
  unwritten : s.st = .accum → ∀ c ∈ s.buf, c.1 < s.count.toNat
  discarded : s.st ≠ .accum → s.buf = []
  ahead : s.st ≠ .idle → s.now < s.deadline

/-- The shape of the output (43_serial_frame_encoder.md R175): `tx` is one PONG per PING completed since RESET. -/
def State.OutputShape (s : State) : Prop :=
  s.tx = (List.replicate s.pings (pongFrame s.cfg.protocolRev)).flatten

/-- Two states agree in every register that means something in its state (10_state.md section 1, column "meaningful
when"). `tx`, the clock input, the pending events and the ghost log are compared where a claim needs them. -/
structure State.SameMeaning (s s' : State) : Prop where
  cfg : s.cfg = s'.cfg
  st : s.st = s'.st
  lenHi : s.st = .hdr → s.lenHi = s'.lenHi
  deadline : s.st ≠ .idle → s.deadline = s'.deadline
  expectedLen : s.st = .accum → s.expectedLen = s'.expectedLen
  count : s.st = .accum → s.count = s'.count
  bytes : s.st = .accum → ∀ a, a < s.count.toNat → s.buf.read a = s'.buf.read a

/-- From `s` to `t` and from `s'` to `t'` the same bytes went out: appended alike, or `tx` started again in both (RESET). -/
def sameOutput (s t s' t' : State) : Prop :=
  (∃ out, t.tx = s.tx ++ out ∧ t'.tx = s'.tx ++ out) ∨ t.tx = t'.tx

end Sys2Proof.Machine

/-- The bound under which the document's recovery within about 100 ms holds (70_reset_and_hazards.md R262, upper bound). -/
def Sys2Proof.Config.MeetsDocumentRecovery (c : Sys2Proof.Config) : Prop := c.tReasm * c.tickPeriodUs ≤ 100000
end

