-- ==== Sys2Proof/Certificates/Slice0/Obligations.lean ====
section
/-! DEFINITION. The statements of this row, each with the rule or the section of spec/ it formalises. The entries of the ghost log
in a result are the model's own bookkeeping (60_exceptions.md R224, log 7), and so are the values that `len_hi`, `expected_len`,
`count` and `deadline` keep once they are unspecified (log 5). A statement of a rule that returns to IDLE says nothing of the
bytes of `buf`, which are unspecified from then on (41_reassembly_buffer.md R135): it writes them as the result's own. That they
are absent is `DiscardedBytesAreAbsent`. -/

open Sys2Proof Sys2Proof.Machine

/-! ## The byte classes -/

/-- 40_serial_frame_decoder.md section 2 (the spec's decisions D2, D3): a byte in IDLE is held as the first length byte, the
deadline is armed with `now + T_REASM`, `st` becomes HDR, and nothing else changes. -/
def Obligations.HdrHiHoldsTheByteAndArms : Prop :=
  ∀ (b : Byte) (s : State),
    exec (.hdrHi b) s = .next { s with lenHi := b, deadline := s.now + s.cfg.tReasm, st := .hdr }

/-- 40_serial_frame_decoder.md R105: an accepted length starts accumulation; `buf` is not cleared, `deadline` is kept. -/
def Obligations.HdrLoStartsAccumulation : Prop :=
  ∀ (b : Byte) (s : State), 1 ≤ s.lenHi.toNat * 256 + b.toNat → s.lenHi.toNat * 256 + b.toNat ≤ s.cfg.maxFrameLen →
    exec (.hdrLo b) s =
      .next { s with expectedLen := BitVec.ofNat 16 (s.lenHi.toNat * 256 + b.toNat), count := 0, st := .accum }

/-- 40_serial_frame_decoder.md R103: the zero-length frame completes in the event of its second header byte, emits nothing and
leaves `st = IDLE`; `expected_len` and `count` are not written, and `buf`, which holds nothing in HDR, holds nothing still. -/
def Obligations.ZeroLengthFrameCompletesAtOnce : Prop :=
  ∀ (b : Byte) (s : State), s.lenHi.toNat * 256 + b.toNat = 0 →
    ∃ t, exec (.hdrLo b) s = .next t ∧
      t = { s with st := .idle, buf := t.buf, ghost := s.ghost ++ [.complete [], .unknown] } ∧
      (s.buf = [] → t.buf = s.buf)

/-- 40_serial_frame_decoder.md section 3 (the spec's decision D9): a header above `MAX_FRAME_LEN` is discarded at its second
byte, with the effect of the OVERSIZE row. No byte of `buf` has a value afterwards (the spec's decision D23). -/
def Obligations.OversizedHeaderIsDiscardedAtItsSecondByte : Prop :=
  ∀ (b : Byte) (s : State), s.cfg.maxFrameLen < s.lenHi.toNat * 256 + b.toNat →
    exec (.hdrLo b) s = exec (.oversize (BitVec.ofNat 16 (s.lenHi.toNat * 256 + b.toNat))) s ∧
    exec (.hdrLo b) s = .next { s with st := .idle, buf := [], ghost := s.ghost ++ [.discard .oversize] }

/-- 41_reassembly_buffer.md R131: APPEND stores a payload byte at `buf[count]` and nowhere else, the last one too. PAYLOAD runs
it: while the frame is not complete, its next state is that of APPEND with `count` grown by one; with the last byte, what
completes is the buffer that APPEND has left. The premises are the precondition R131 names and that the bytes before it have
been stored. -/
def Obligations.PayloadByteIsAppendedAtCount : Prop :=
  ∀ (b : Byte) (s : State), s.count.toNat < s.expectedLen.toNat → s.expectedLen.toNat ≤ s.cfg.maxFrameLen →
    (∀ a, a < s.count.toNat → (s.buf.read a).isSome) →
    ∃ u t, append b s = .next u ∧ u = { s with buf := u.buf } ∧
      u.buf.read (storeIndex s) = some b ∧ (∀ a, a ≠ storeIndex s → u.buf.read a = s.buf.read a) ∧
      exec (.payload b) s = .next t ∧ t.count.toNat = s.count.toNat + 1 ∧
      (s.count.toNat + 1 < s.expectedLen.toNat → t = { u with count := t.count }) ∧
      (s.count.toNat + 1 = s.expectedLen.toNat →
        ∃ p, u.buf.readRange 0 s.expectedLen.toNat = some p ∧ t.ghost = s.ghost ++ completionEntries s.cfg p)

/-- 40_serial_frame_decoder.md R107 (with the completion of section 5): the last payload byte hands the whole payload on; in the
same event the response, if the payload has one, goes to `tx`, and `st` becomes IDLE. -/
def Obligations.LastPayloadByteCompletesTheFrame : Prop :=
  ∀ (b : Byte) (p : List Byte) (s : State),
    p.length = s.count.toNat → (∀ i, i < p.length → s.buf.read i = p[i]?) →
    s.count.toNat + 1 = s.expectedLen.toNat → s.expectedLen.toNat ≤ s.cfg.maxFrameLen →
    ∃ t, exec (.payload b) s = .next t ∧
      t = { s with
        st := .idle
        count := s.expectedLen
        buf := t.buf
        tx := s.tx ++ (if p ++ [b] = [0x08, 0x01] then pongFrame s.cfg.protocolRev else [])
        ghost := s.ghost ++ (if p ++ [b] = [0x08, 0x01] then [.complete (p ++ [b])] else [.complete (p ++ [b]), .unknown]) }

/-! ## The frame rows -/

/-- 42_frame_dispatcher.md R151, R152: PING is answered with `00 02 08 02` in V1 and `00 04 08 02 10 01` in V2, and the
decoder is in IDLE; nothing else changes but that the frame's bytes in `buf` are done with. -/
def Obligations.PingIsAnsweredWithThePongOfItsRevision : Prop :=
  ∀ s : State, ∃ t, exec .ping s = .next t ∧
    (s.cfg.protocolRev = .v1 → t = { s with
      st := .idle, buf := t.buf, tx := s.tx ++ [0x00, 0x02, 0x08, 0x02], ghost := s.ghost ++ [.complete [0x08, 0x01]] }) ∧
    (s.cfg.protocolRev = .v2 → t = { s with
      st := .idle, buf := t.buf, tx := s.tx ++ [0x00, 0x04, 0x08, 0x02, 0x10, 0x01],
      ghost := s.ghost ++ [.complete [0x08, 0x01]] })

/-- 42_frame_dispatcher.md R153: a frame whose payload is not exactly `08 01`, the empty one among them, changes nothing but
`st`, which returns to IDLE, where the frame's bytes in `buf` are done with. -/
def Obligations.UnrecognisedFramesAreDropped : Prop :=
  (∀ (p : List Byte) (s : State), p ≠ [0x08, 0x01] →
    ∃ t, exec (.unknown p) s = .next t ∧
      t = { s with st := .idle, buf := t.buf, ghost := s.ghost ++ [.complete p, .unknown] }) ∧
  ∀ s : State, ∃ t, exec .empty s = .next t ∧
    t = { s with st := .idle, buf := t.buf, ghost := s.ghost ++ [.complete [], .unknown] }

/-- 60_exceptions.md R225: the whole effect of a discard is `st <- IDLE`, for OVERSIZE (the OVERSIZE row) and for TRUNCATED
(the deadline check); no other register is written, and `buf` becomes unspecified. -/
def Obligations.DiscardOnlyReturnsToIdle : Prop :=
  (∀ (len : Half) (s : State), ∃ t, exec (.oversize len) s = .next t ∧
    t = { s with st := .idle, buf := t.buf, ghost := s.ghost ++ [.discard .oversize] }) ∧
  ∀ s : State, s.st ≠ .idle → s.deadline ≤ s.now →
    s.checkDeadline = { s with st := .idle, buf := s.checkDeadline.buf, ghost := s.ghost ++ [.discard .truncated] }

/-- 30_encoding.md section 3, 43_serial_frame_encoder.md section 2: the sent rows append their frame to `tx` and change nothing
else. That a sent row's meaning is its emission is the model's reading (log 10). -/
def Obligations.SentRowsAppendTheirFrame : Prop :=
  ∀ s : State,
    exec .pongV1 s = .next { s with tx := s.tx ++ [0x00, 0x02, 0x08, 0x02] } ∧
    exec .pongV2 s = .next { s with tx := s.tx ++ [0x00, 0x04, 0x08, 0x02, 0x10, 0x01] }

/-! ## Dispatcher and encoder -/

/-- 42_frame_dispatcher.md R151, R152, R153: the whole graph of the dispatcher, for both revisions. -/
def Obligations.DispatcherRecognisesExactlyThePing : Prop :=
  ∀ (c : Config) (p q : List Byte),
    dispatch c p = some q ↔
      p = [0x08, 0x01] ∧
        ((c.protocolRev = .v1 ∧ q = [0x08, 0x02]) ∨ (c.protocolRev = .v2 ∧ q = [0x08, 0x02, 0x10, 0x01]))

/-- 43_serial_frame_encoder.md section 1: the header is the length divided by 256 and the length modulo 256, the payload follows
verbatim, and the decoder's length assembly gives the length back. -/
def Obligations.EncodedHeaderIsReadBackAsTheLength : Prop :=
  ∀ q : List Byte, q.length ≤ 65535 →
    ∃ hi lo, encodeFrame q = hi :: lo :: q ∧ hi.toNat = q.length / 256 ∧ lo.toNat = q.length % 256 ∧
      (lengthOf hi lo).toNat = q.length

/-! ## Encoding -/

/-- 30_encoding.md sections 1 and 3: decoding the bytes of a well-formed instruction gives it back, with every operand, and the
bytes after it. -/
def Obligations.DecodeOfEncodeGivesTheInstructionBack : Prop :=
  ∀ (c : Config) (i : Instr) (rest : List Byte), c.Valid → i.wf c = true →
    decode c i.view (encode i ++ rest) = .ok (i, rest)

/-- 30_encoding.md section 3: what the decoder reads is exactly the bytes it consumed, in the row whose condition they meet. -/
def Obligations.DecodedBytesAreTheInstructionsEncoding : Prop :=
  ∀ (c : Config) (v : View) (i : Instr) (bytes rest : List Byte), decode c v bytes = .ok (i, rest) →
    encode i ++ rest = bytes ∧ i.view = v ∧ (v = .received → i.wf c = true)

/-- 30_encoding.md R81: no received byte sequence is refused; the decoder only ever waits for bytes that are still missing. -/
def Obligations.OnlyIncompleteFramesAreNotDecoded : Prop :=
  ∀ (c : Config) (bytes : List Byte) (e : DecodeError), decode c .received bytes = .error e →
    (bytes.length < 2 ∧ e = .shortHeader) ∨
    ∃ hi lo rest, bytes = hi :: lo :: rest ∧ hi.toNat * 256 + lo.toNat ≤ c.maxFrameLen ∧
      rest.length < hi.toNat * 256 + lo.toNat ∧ e = .shortPayload

/-- 30_encoding.md R77: words written out from the table decode to their rows. -/
def Obligations.TableWordsDecodeToTheirRows : Prop :=
  decodeTableWord 32 0x00020801 = some .ping ∧
  decodeTableWord 32 0x00020802 = some .pongV1 ∧
  decodeTableWord 48 0x000408021001 = some .pongV2 ∧
  decodeTableWord 16 0x0000 = some .empty ∧
  decodeTableWord 16 0x0041 = some (.oversize 65) ∧
  decodeTableWord 32 0x00020803 = some (.unknown [0x08, 0x03]) ∧
  decode Config.specExample .received [0x00, 0x02, 0x08, 0x02] = .ok (.unknown [0x08, 0x02], []) ∧
  ∀ b : Byte,
    decode Config.specExample (.byteIn .idle) [b] = .ok (.hdrHi b, []) ∧
    decode Config.specExample (.byteIn .hdr) [b] = .ok (.hdrLo b, []) ∧
    decode Config.specExample (.byteIn .accum) [b] = .ok (.payload b, [])

/-! ## Events -/

/-- 45_engine_operations.md section 1 (the spec's decision D6): an RX event samples the clock, checks the deadline, and then the
step is `exec` of the instruction the byte decodes to in the state after the check. A discard leaves no byte of `buf` a value
(the spec's decision D23). -/
def Obligations.RxStepRunsTheDecodedByte : Prop :=
  ∀ (b : Byte) (n : Nat) (es : List Event) (s u : State), s.input = .rx b n :: es →
    u = (if s.st ≠ .idle ∧ s.deadline ≤ n
      then { s with input := es, now := n, st := .idle, buf := [], ghost := s.ghost ++ [.discard .truncated] }
      else { s with input := es, now := n }) →
    ∃ i, decode s.cfg (.byteIn u.st) [b] = .ok (i, []) ∧ step s = exec i u

/-- 44_recovery_policy.md section 2 (the spec's decision D6): a byte at or after the deadline is byte 0 of a fresh frame with a
deadline of its own; the old frame leaves no other trace. -/
def Obligations.LateByteStartsAFreshFrame : Prop :=
  ∀ (b : Byte) (n : Nat) (es : List Event) (s : State), s.input = .rx b n :: es → s.st ≠ .idle → s.deadline ≤ n →
    step s = .next { s with
      input := es, now := n, lenHi := b, buf := [], deadline := n + s.cfg.tReasm, st := .hdr,
      ghost := s.ghost ++ [.discard .truncated] }

/-- 44_recovery_policy.md R189: a TICK is the deadline check and nothing else: it discards an expired frame, and otherwise, in
IDLE always, it changes nothing. -/
def Obligations.TickOnlyChecksTheDeadline : Prop :=
  ∀ (n : Nat) (es : List Event) (s : State), s.input = .tick n :: es →
    (s.st ≠ .idle → s.deadline ≤ n → ∃ t, step s = .next t ∧
      t = { s with input := es, now := n, st := .idle, buf := t.buf, ghost := s.ghost ++ [.discard .truncated] }) ∧
    (s.st = .idle ∨ n < s.deadline → step s = .next { s with input := es, now := n })

/-- 45_engine_operations.md section 1 (the spec's decision D19): the empty chunk is a TICK. -/
def Obligations.EmptyChunkIsATick : Prop :=
  ∀ (n : Nat) (es : List Event) (s : State),
    step { s with input := .chunk [] n :: es } = step { s with input := .tick n :: es }

/-- 45_engine_operations.md section 1: a chunk is the RX events of its bytes in order, all with the chunk's time. -/
def Obligations.ChunkIsItsRxEventsInOrder : Prop :=
  ∀ (bs : List Byte) (n : Nat) (es : List Event) (s : State), bs ≠ [] →
    step { s with input := .chunk bs n :: es } =
      runFor bs.length { s with input := bs.map (fun b => Event.rx b n) ++ es }

/-- 45_engine_operations.md section 1, "Equivalence": one deadline check at the start of a chunk does what a check before every
byte does. -/
def Obligations.OneDeadlineCheckPerChunkIsEnough : Prop :=
  ∀ (bs : List Byte) (n : Nat) (es : List Event) (s : State), 1 ≤ s.cfg.tReasm →
    step { s with input := .chunk bs n :: es } =
      rxUnchecked bs ({ s with input := es, now := n } : State).checkDeadline

/-- 70_reset_and_hazards.md section 1 (the spec's decision D17): RESET, in any state, returns to IDLE, starts `tx` again
and leaves no byte of `buf` a value (the spec's decision D23); every other register keeps what it holds (log 5: the spec leaves
them unspecified). Two in a row are one. -/
def Obligations.ResetEventStartsEmpty : Prop :=
  ∀ (es : List Event) (s : State),
    step { s with input := .reset :: es } = .next { s with input := es, st := .idle, buf := [], tx := [], ghost := [] } ∧
    runFor 2 { s with input := .reset :: .reset :: es } = step { s with input := .reset :: es }

/-- 10_state.md section 8: after reset `st = IDLE` and `tx` is empty, whatever the parameters, and the first byte is at once a
first header byte. -/
def Obligations.ResetStateIsReadyForAFrame : Prop :=
  State.reset = State.resetWith Config.specExample ∧
  ∀ (c : Config) (b : Byte) (n : Nat),
    (State.resetWith c).st = .idle ∧ (State.resetWith c).tx = [] ∧
    ∃ t, runAll [.rx b n] (State.resetWith c) = .next t ∧ t.st = .hdr ∧ t.lenHi = b ∧ t.deadline = n + c.tReasm ∧ t.tx = []

/-- 60_exceptions.md section 9 (log 2): with no event pending the block waits; nothing changes. -/
def Obligations.WaitingChangesNothing : Prop :=
  ∀ s : State, s.input = [] → step s = .next s

/-! ## Frames of the meanings: what an instruction leaves alone -/

/-- 40_serial_frame_decoder.md section 6 (the transition table): `len_hi` and `deadline` are written only by HDR_HI,
`expected_len` only by HDR_LO, `count` only by HDR_LO and PAYLOAD; no instruction writes the parameters; `tx` only grows. -/
def Obligations.InstructionsWriteOnlyTheirOwnRegisters : Prop :=
  ∀ (i : Instr) (s t : State), exec i s = .next t →
    ((∀ b, i ≠ .hdrHi b) → t.lenHi = s.lenHi ∧ t.deadline = s.deadline) ∧
    ((∀ b, i ≠ .hdrLo b) → t.expectedLen = s.expectedLen) ∧
    ((∀ b, i ≠ .hdrLo b ∧ i ≠ .payload b) → t.count = s.count) ∧
    ((i = .pongV1 ∨ i = .pongV2) → t.st = s.st) ∧
    (∃ out, t.tx = s.tx ++ out ∧
      (out ≠ [] → i = .ping ∨ i = .pongV1 ∨ i = .pongV2 ∨ i = .unknown pingPayload ∨ ∃ b, i = .payload b)) ∧
    t.cfg = s.cfg ∧ t.now = s.now ∧ t.input = s.input

/-- 20_memory.md section 2, 41_reassembly_buffer.md sections 2 and 3: only PAYLOAD stores, and only at the index its meaning
computes. Every other byte of `buf` reads as before, unless the instruction ends the frame: then `st` is IDLE and every byte is
absent (the spec's decision D23). HDR_HI and the sent rows never end a frame, HDR_LO ends it unless it starts accumulation, and
PAYLOAD ends it exactly with the last byte. -/
def Obligations.OnlyPayloadWritesTheBuffer : Prop :=
  ∀ (i : Instr) (s t : State), exec i s = .next t →
    ((∀ b, i ≠ .payload b) → t.buf = s.buf ∨ (t.st = .idle ∧ t.buf = [])) ∧
    ((∃ b, i = .hdrHi b) ∨ (∃ b, i = .hdrLo b ∧ t.st = .accum) ∨ i = .pongV1 ∨ i = .pongV2 → t.buf = s.buf) ∧
    ∀ b, i = .payload b →
      (s.count + 1 ≠ s.expectedLen →
        t.buf.read (storeIndex s) = some b ∧ ∀ a, a ≠ storeIndex s → t.buf.read a = s.buf.read a) ∧
      (s.count + 1 = s.expectedLen → t.st = .idle ∧ t.buf = [])

/-- 00_scope.md R16 and 20_memory.md section 2: an instruction stops exactly where the spec defines no access: PAYLOAD at an index
not below `MAX_FRAME_LEN`, or completing a frame some byte of which was never stored. Stopping there is the model's choice
(log 21). Nothing is ever refused. -/
def Obligations.OnlyUndefinedBufferAccessesStop : Prop :=
  ∀ (i : Instr) (s : State),
    (∀ r, exec i s ≠ .refused r) ∧
    ((∃ f, exec i s = .fault f) ↔
      ∃ b, i = .payload b ∧
        (s.cfg.maxFrameLen ≤ s.count.toNat ∨
          (s.count + 1 = s.expectedLen ∧ ∃ a, a < s.expectedLen.toNat ∧ a ≠ storeIndex s ∧ s.buf.read a = none)))

/-- 00_scope.md section 3, 10_state.md section 7 (the spec's decision D13): no step changes the parameters, and a step takes at
most one event. -/
def Obligations.ParametersNeverChange : Prop :=
  ∀ s t : State, step s = .next t → t.cfg = s.cfg ∧ t.input = s.input.tail

/-! ## Whole-machine rules -/

/-- 70_reset_and_hazards.md section 1, 10_state.md section 8: the reset state of every legal configuration meets the invariant. -/
def Obligations.ResetMeetsTheInvariant : Prop :=
  State.reset.Inv ∧ ∀ c : Config, c.Valid → (State.resetWith c).Inv

/-- 10_state.md section 3, 20_memory.md sections 1 and 2, 44_recovery_policy.md section 2, 41_reassembly_buffer.md section 3: every step keeps the
invariant, from every state that meets it, whatever event comes and whatever the clock reads. -/
def Obligations.EveryStepKeepsTheInvariant : Prop :=
  ∀ s t : State, s.Inv → step s = .next t → t.Inv

/-- 45_engine_operations.md section 1, "Form of a model's step": no fault, no refusal, no stuck state: from a state that meets the
invariant every event is handled. -/
def Obligations.EveryEventIsHandled : Prop :=
  ∀ s : State, s.Inv → ∃ t, step s = .next t

/-- 43_serial_frame_encoder.md section 2, "Shape of the output": `tx` stays one PONG of the configured revision per PING completed
since RESET, whatever events come. -/
def Obligations.OutputStaysOnePongPerPing : Prop :=
  State.reset.OutputShape ∧ ∀ s t : State, s.OutputShape → step s = .next t → t.OutputShape

/-- 20_memory.md section 2 (log 21): in a state that meets the invariant the next payload byte falls inside the buffer, and the
increment of `count` does not wrap. -/
def Obligations.StoreIndexStaysInsideTheBuffer : Prop :=
  ∀ s : State, s.Inv → s.st = .accum →
    storeIndex s < s.cfg.maxFrameLen ∧ (s.count + 1).toNat = s.count.toNat + 1 ∧ (s.count + 1).toNat ≤ s.expectedLen.toNat

/-- 44_recovery_policy.md section 2 (the spec's decision D4): a byte in time never moves the deadline of the frame in flight. -/
def Obligations.DeadlineIsNeverMoved : Prop :=
  ∀ (b : Byte) (n : Nat) (es : List Event) (s t : State),
    s.input = .rx b n :: es → s.st ≠ .idle → n < s.deadline → step s = .next t → t.deadline = s.deadline

/-- 44_recovery_policy.md section 2, "The deadline bounds residence": the first event at or after its deadline finds the partial
frame gone: the step is that of the state with the frame discarded. So after a TICK or an empty chunk the block is in IDLE, and a
frame in flight after the event started in it. -/
def Obligations.PartialFrameIsGoneAfterItsDeadline : Prop :=
  ∀ (e : Event) (n : Nat) (es : List Event) (s : State),
    s.input = e :: es → ((∃ b, e = .rx b n) ∨ (∃ bs, e = .chunk bs n) ∨ e = .tick n) →
    s.st ≠ .idle → s.deadline ≤ n →
    step s = step { s with st := .idle, buf := [], ghost := s.ghost ++ [.discard .truncated] } ∧
    (e = .tick n ∨ e = .chunk [] n → ∃ t, step s = .next t ∧ t.st = .idle) ∧
    ∀ t, step s = .next t → t.st = .idle ∨ t.deadline = n + s.cfg.tReasm

/-- 60_exceptions.md section 4 (the spec's decision D6): at most one discard happens in an RX event. -/
def Obligations.AtMostOneDiscardPerByte : Prop :=
  ∀ (b : Byte) (n : Nat) (es : List Event) (s t : State),
    s.input = .rx b n :: es → step s = .next t → t.discards ≤ s.discards + 1

/-- 60_exceptions.md section 1 (the spec's decision D18): the ghost log is read by nothing: with another log the step is the same
but for the log. -/
def Obligations.GhostLogIsNeverRead : Prop :=
  ∀ (g : List TraceEntry) (s : State),
    (∀ t, step s = .next t → ∃ g', step { s with ghost := g } = .next { t with ghost := g' }) ∧
    ∀ f, step s = .fault f → step { s with ghost := g } = .fault f

/-- 10_state.md section 8: no rule reads an unspecified value: two states that agree in every register that means something take
the same step, to states that agree again, with the same output. -/
def Obligations.UnspecifiedRegistersAreNeverRead : Prop :=
  ∀ s s' : State, s.Inv → s.SameMeaning s' → s.input = s'.input →
    ∃ t t', step s = .next t ∧ step s' = .next t' ∧ t.SameMeaning t' ∧ t.input = t'.input ∧ sameOutput s t s' t'

/-! ## Whole frames -/

/-- 30_encoding.md section 3, 40_serial_frame_decoder.md section 6: a received frame of the table that arrives in one chunk in IDLE
is, in that one step, the frame's own row run where its bytes have led. -/
def Obligations.WholeFrameStepRunsItsRow : Prop :=
  ∀ (i : Instr) (n : Nat) (es : List Event) (s : State),
    s.cfg.Valid → s.st = .idle → i.view = .received → i.wf s.cfg = true →
    step { s with input := .chunk (encode i) n :: es } = exec i ({ s with input := es }.receiving n i)

/-- 40_serial_frame_decoder.md section 6 and 45_engine_operations.md section 2, fragmentation independence: the bytes of an
accepted frame, cut up into RX events and chunks in any way and with TICKs anywhere, all within `T_REASM` of a time `t0` (so
before the deadline of the first byte): nothing happens outside before the last byte, and with it exactly one completion with
the frame's payload. -/
def Obligations.FragmentationDoesNotMatter : Prop :=
  ∀ (p : List Byte) (t0 : Nat) (evs : List Event) (s : State),
    s.Inv → s.st = .idle → p.length ≤ s.cfg.maxFrameLen → (∀ e ∈ evs, e.within t0 (t0 + s.cfg.tReasm) = true) →
    (∀ more, more ≠ [] → encodeFrame p = bytesOf evs ++ more →
      ∃ t, runAll evs s = .next t ∧ (t.st = .idle ↔ bytesOf evs = []) ∧ t.tx = s.tx ∧ t.ghost = s.ghost) ∧
    (encodeFrame p = bytesOf evs →
      ∃ t, runAll evs s = .next t ∧ t.st = .idle ∧ t.tx = s.tx ++ responseTo s.cfg p ∧
        t.ghost = s.ghost ++ completionEntries s.cfg p)

/-- 45_engine_operations.md section 2, "Strict prefix, then silence": a strict prefix of an accepted frame, delivered in time in
any pieces, and then only TICKs, however late: nothing is emitted and nothing completes: all that can be logged is the one
discard of the prefix. -/
def Obligations.StrictPrefixIsSilent : Prop :=
  ∀ (p more : List Byte) (t0 : Nat) (evs ticks : List Event) (s : State),
    s.Inv → s.st = .idle → p.length ≤ s.cfg.maxFrameLen → more ≠ [] → encodeFrame p = bytesOf evs ++ more →
    (∀ e ∈ evs, e.within t0 (t0 + s.cfg.tReasm) = true) → (∀ e ∈ ticks, e.isTick = true) →
    ∃ t, runAll (evs ++ ticks) s = .next t ∧ t.tx = s.tx ∧
      (t.ghost = s.ghost ∨ (t.st = .idle ∧ t.ghost = s.ghost ++ [.discard .truncated]))

/-- 45_engine_operations.md section 2, "Independence after a timeout": after a strict prefix whose first bytes came at `t0` and
TICKs, an RX event at or after the deadline and everything after it run as from reset. -/
def Obligations.RecoveryIsIndependentOfTheOldFrame : Prop :=
  ∀ (p more : List Byte) (b : Byte) (t0 n : Nat) (e : Event) (evs ticks later : List Event) (s : State),
    s.Inv → s.st = .idle → p.length ≤ s.cfg.maxFrameLen → more ≠ [] → encodeFrame p = bytesOf (e :: evs) ++ more →
    e.bytes ≠ [] → e.within t0 (t0 + 1) = true → (∀ e' ∈ evs, e'.within t0 (t0 + s.cfg.tReasm) = true) →
    (∀ e' ∈ ticks, e'.isTick = true) → t0 + s.cfg.tReasm ≤ n →
    ∃ t t', runAll (e :: (evs ++ ticks ++ .rx b n :: later)) s = .next t ∧
      runAll (.rx b n :: later) (State.resetWith s.cfg) = .next t' ∧ t.SameMeaning t' ∧
      sameOutput s t (State.resetWith s.cfg) t'

/-- 44_recovery_policy.md section 2, "TICK events do not change what the block emits", under the premise that the clock is
monotonic (70_reset_and_hazards.md section 2): without its TICKs a run puts out the same, and after an RX event it is in the same
state. -/
def Obligations.TicksDoNotChangeTheOutput : Prop :=
  ∀ (n : Nat) (evs : List Event) (s : State), s.Inv → monotoneFrom n evs →
    ∃ t t', runAll evs s = .next t ∧ runAll (evs.filter fun e => !e.isTick) s = .next t' ∧ t.tx = t'.tx ∧
      ((∃ front e, evs = front ++ [e] ∧ e.isRx = true) → t.SameMeaning t')

/-- 40_serial_frame_decoder.md R111: the bytes of a chunk after a whole frame start the next frame at once, as if they had come
in a chunk of their own. -/
def Obligations.SurplusBytesStartTheNextFrame : Prop :=
  ∀ (p rest : List Byte) (n : Nat) (es : List Event) (s : State),
    s.Inv → s.st = .idle → p.length ≤ s.cfg.maxFrameLen → rest ≠ [] →
    (∃ t, step { s with input := .chunk (encodeFrame p) n :: es } = .next t ∧ t.st = .idle) ∧
    step { s with input := .chunk (encodeFrame p ++ rest) n :: es } =
      runFor 2 { s with input := .chunk (encodeFrame p) n :: .chunk rest n :: es }

/-- 40_serial_frame_decoder.md section 3, 70_reset_and_hazards.md section 3 (the spec's decision D9): after an oversized header no
byte is skipped: the rest of the chunk is read from IDLE as new headers, with no byte of `buf` a value (D23). -/
def Obligations.BytesAfterAnOversizedHeaderAreNewHeaders : Prop :=
  ∀ (hi lo : Byte) (rest : List Byte) (n : Nat) (es : List Event) (s : State),
    s.st = .idle → 1 ≤ s.cfg.tReasm → s.cfg.maxFrameLen < hi.toNat * 256 + lo.toNat →
    step { s with input := .chunk (hi :: lo :: rest) n :: es } =
      rxBytes rest { s with
        input := es, now := n, lenHi := hi, buf := [], deadline := n + s.cfg.tReasm,
        ghost := s.ghost ++ [.discard .oversize] }

/-! ## The document's scenarios -/

/-- 45_engine_operations.md R211: Scenario A, for both revisions, from any state of a run that is in IDLE. -/
def Obligations.ScenarioAPingInOneWrite : Prop :=
  ∀ (n : Nat) (s : State), s.Inv → s.st = .idle →
    ∃ t, runAll [.chunk [0x00, 0x02, 0x08, 0x01] n] s = .next t ∧ t.tx = s.tx ++ pongFrame s.cfg.protocolRev ∧ t.st = .idle

/-- 45_engine_operations.md R212: Scenario B, the PING in two writes inside the deadline. -/
def Obligations.ScenarioBPingInTwoWrites : Prop :=
  ∀ (t0 t1 : Nat) (s : State), s.Inv → s.st = .idle → t0 ≤ t1 → t1 < t0 + s.cfg.tReasm →
    (∃ u, runAll [.chunk [0x00, 0x02] t0] s = .next u ∧ u.st = .accum ∧ u.expectedLen = 2 ∧ u.count = 0 ∧ u.tx = s.tx) ∧
    ∃ t, runAll [.chunk [0x00, 0x02] t0, .chunk [0x08, 0x01] t1] s = .next t ∧
      t.tx = s.tx ++ pongFrame s.cfg.protocolRev ∧ t.st = .idle

/-- 45_engine_operations.md R213: Scenario C, loss recovery: after the partial send nothing is emitted however long the host
waits, and a PING at or after the deadline is answered. -/
def Obligations.ScenarioCLossRecovery : Prop :=
  ∀ (t0 t2 : Nat) (ticks : List Event) (s : State),
    s.Inv → s.st = .idle → (∀ e ∈ ticks, e.isTick = true) → t0 + s.cfg.tReasm ≤ t2 →
    (∃ u, runAll (.chunk [0x00, 0x02] t0 :: ticks) s = .next u ∧ u.tx = s.tx) ∧
    ∃ t, runAll (.chunk [0x00, 0x02] t0 :: (ticks ++ [.chunk [0x00, 0x02, 0x08, 0x01] t2])) s = .next t ∧
      t.tx = s.tx ++ pongFrame s.cfg.protocolRev ∧ t.st = .idle

/-- 45_engine_operations.md R214: a complete frame whose payload is not `08 01`, in whatever pieces it came, leaves `tx`
unchanged, for ever: whatever TICKs follow. The block is in IDLE. -/
def Obligations.UnknownTagFrameIsNeverAnswered : Prop :=
  ∀ (p : List Byte) (t0 : Nat) (evs ticks : List Event) (s : State),
    s.Inv → s.st = .idle → p.length ≤ s.cfg.maxFrameLen → p ≠ [0x08, 0x01] → encodeFrame p = bytesOf evs →
    (∀ e ∈ evs, e.within t0 (t0 + s.cfg.tReasm) = true) → (∀ e ∈ ticks, e.isTick = true) →
    ∃ t, runAll (evs ++ ticks) s = .next t ∧ t.tx = s.tx ∧ t.st = .idle

/-- 70_reset_and_hazards.md section 3, bounds on the timeout: with `T_REASM * TICK_PERIOD` at most 100 ms, a PING that arrives
100 ms of real time or more after the first byte of a partial send is answered. -/
def Obligations.RecoveryWithinTheDocumentsTime : Prop :=
  ∀ (t0 t2 : Nat) (s : State), s.Inv → s.st = .idle → s.cfg.MeetsDocumentRecovery → 0 < s.cfg.tickPeriodUs →
    t0 * s.cfg.tickPeriodUs + 100000 ≤ t2 * s.cfg.tickPeriodUs →
    ∃ t, runAll [.chunk [0x00, 0x02] t0, .chunk [0x00, 0x02, 0x08, 0x01] t2] s = .next t ∧
      t.tx = s.tx ++ pongFrame s.cfg.protocolRev ∧ t.st = .idle

/-! ## The buffer outside a frame -/

/-- 41_reassembly_buffer.md section 3 (the spec's decision D23): discarded bytes are absent. Each row that ends a frame, HDR_LO
with a length that is 0 or too long, and the last payload byte leave the block in IDLE with no byte of `buf` a value; and no step
brings one back outside ACCUM. -/
def Obligations.DiscardedBytesAreAbsent : Prop :=
  (∀ (i : Instr) (s t : State), exec i s = .next t →
    (i.view = .received ∨
      (∃ b, i = .hdrLo b ∧
        (s.lenHi.toNat * 256 + b.toNat = 0 ∨ s.cfg.maxFrameLen < s.lenHi.toNat * 256 + b.toNat)) ∨
      ∃ b, i = .payload b ∧ s.count + 1 = s.expectedLen) →
    t.st = .idle ∧ ∀ a, t.buf.read a = none) ∧
  ∀ s t : State, (s.st ≠ .accum → s.buf = []) → step s = .next t → t.st ≠ .accum → ∀ a, t.buf.read a = none
end

