-- ==== Sys2Proof/Laws/Memory.lean ====
section
/-! SUPPORT. The laws of the buffer: read after write, and that a write keeps the canonical form and the bound. -/

namespace Sys2Proof.Machine.Memory

@[simp] theorem read_nil (a : Nat) : Memory.read [] a = none := rfl

/-- A read after a write to the same index gives the byte written. -/
@[simp] theorem read_write_same (m : Memory) (a : Nat) (b : Byte) : (m.write a b).read a = some b := by
  induction m with
  | nil => simp [write, read]
  | cons c m ih =>
    unfold write
    split
    · simp [read]
    · split
      · simp [read]
      · rename_i h1 h2
        simp [read, ih, show c.1 ≠ a by omega]

/-- A write leaves every other index alone. -/
theorem read_write_ne (m : Memory) {a a' : Nat} (b : Byte) (h : a' ≠ a) : (m.write a b).read a' = m.read a' := by
  induction m with
  | nil => simp [write, read, Ne.symm h]
  | cons c m ih =>
    unfold write
    split
    · simp [read, Ne.symm h]
    · split
      · rename_i h1 h2
        simp [read, ← h2, Ne.symm h]
      · simp [read, ih]

/-- Read after write, for every index. -/
theorem read_write (m : Memory) (a a' : Nat) (b : Byte) :
    (m.write a b).read a' = if a' = a then some b else m.read a' := by
  split
  · subst_vars; simp
  · exact read_write_ne m b ‹_›

/-- The cells of a written buffer: the new one, or an old one. -/
theorem mem_write {m : Memory} {a : Nat} {b : Byte} {c : Host.Cell} (h : c ∈ m.write a b) : c = (a, b) ∨ c ∈ m := by
  induction m with
  | nil => simpa [write] using h
  | cons d m ih =>
    unfold write at h
    split at h
    · simpa using h
    · split at h
      · rcases List.mem_cons.1 h with h | h
        · exact .inl h
        · exact .inr (List.mem_cons_of_mem _ h)
      · rcases List.mem_cons.1 h with h | h
        · exact .inr (h ▸ List.mem_cons_self ..)
        · exact (ih h).imp_right (List.mem_cons_of_mem _)

/-- The buffer after reset has the canonical form. -/
theorem wf_reset (c : Config) : (State.resetWith c).buf.wf := List.Pairwise.nil

/-- A write keeps the canonical form. -/
theorem wf_write {m : Memory} (a : Nat) (b : Byte) (h : m.wf) : (m.write a b).wf := by
  induction m with
  | nil => simp [write, wf]
  | cons c m ih =>
    obtain ⟨h1, h2⟩ := List.pairwise_cons.1 h
    unfold write
    split
    · rename_i hlt
      refine List.pairwise_cons.2 ⟨fun d hd => ?_, h⟩
      rcases List.mem_cons.1 hd with rfl | hd
      · exact hlt
      · exact Nat.lt_trans hlt (h1 d hd)
    · split
      · rename_i _ heq
        exact List.pairwise_cons.2 ⟨fun d hd => heq ▸ h1 d hd, h2⟩
      · rename_i hlt hne
        refine List.pairwise_cons.2 ⟨fun d hd => ?_, ih h2⟩
        rcases mem_write hd with rfl | hd
        · simp only; omega
        · exact h1 d hd

/-- A write below a bound keeps every index below it. -/
theorem bound_write {m : Memory} {a n : Nat} (b : Byte) (ha : a < n) (h : ∀ c ∈ m, c.1 < n) :
    ∀ c ∈ m.write a b, c.1 < n := fun c hc => by
  rcases mem_write hc with rfl | hc
  · exact ha
  · exact h c hc

/-- Reading a range gives a byte list exactly when each byte of it is there. -/
theorem readRange_eq_some {m : Memory} {a n : Nat} {bs : List Byte} :
    m.readRange a n = some bs ↔ bs.length = n ∧ ∀ i, i < n → m.read (a + i) = bs[i]? := by
  induction n generalizing a bs with
  | zero => cases bs <;> simp [readRange]
  | succ n ih =>
    unfold readRange
    constructor
    · intro h
      split at h
      · rename_i b bs' hb hbs
        cases h
        obtain ⟨hl, hr⟩ := ih.1 hbs
        refine ⟨by simp [hl], fun i hi => ?_⟩
        cases i with
        | zero => simpa using hb
        | succ i => simpa [Nat.add_assoc, Nat.add_comm 1 i] using hr i (by omega)
      · cases h
    · rintro ⟨hl, hr⟩
      cases bs with
      | nil => simp at hl
      | cons b bs =>
        have h0 : m.read a = some b := by simpa using hr 0 (by omega)
        have h1 : m.readRange (a + 1) n = some bs :=
          ih.2 ⟨by simpa using hl, fun i hi => by
            simpa [Nat.add_assoc, Nat.add_comm 1 i] using hr (i + 1) (by omega)⟩
        simp [h0, h1]

/-- A range all of whose bytes are there can be read. -/
theorem readRange_isSome {m : Memory} {a n : Nat} (h : ∀ i, i < n → (m.read (a + i)).isSome) :
    ∃ bs, m.readRange a n = some bs := by
  induction n generalizing a with
  | zero => exact ⟨[], rfl⟩
  | succ n ih =>
    obtain ⟨b, hb⟩ := Option.isSome_iff_exists.1 (h 0 (by omega))
    obtain ⟨bs, hbs⟩ := ih (a := a + 1) fun i hi => by
      simpa [Nat.add_assoc, Nat.add_comm 1 i] using h (i + 1) (by omega)
    have hb : m.read a = some b := by simpa using hb
    exact ⟨b :: bs, by simp [readRange, hb, hbs]⟩

/-- A range of one byte more: the same bytes and the next one. -/
theorem readRange_snoc {m : Memory} {a n : Nat} {bs : List Byte} {b : Byte} (h : m.readRange a n = some bs)
    (hb : m.read (a + n) = some b) : m.readRange a (n + 1) = some (bs ++ [b]) := by
  obtain ⟨hl, hr⟩ := readRange_eq_some.1 h
  refine readRange_eq_some.2 ⟨by simp [hl], fun i hi => ?_⟩
  rcases Nat.lt_or_ge i n with hi' | hi'
  · rw [hr i hi', List.getElem?_append_left (by omega)]
  · obtain rfl : i = n := by omega
    subst hl
    simpa using hb

/-- Two buffers that read alike on a range give the same range. -/
theorem readRange_congr {m m' : Memory} {a n : Nat} (h : ∀ i, i < n → m.read (a + i) = m'.read (a + i)) :
    m.readRange a n = m'.readRange a n := by
  induction n generalizing a with
  | zero => rfl
  | succ n ih =>
    have h0 : m.read a = m'.read a := by simpa using h 0 (by omega)
    have h1 : m.readRange (a + 1) n = m'.readRange (a + 1) n := ih fun i hi => by
      simpa [Nat.add_assoc, Nat.add_comm 1 i] using h (i + 1) (by omega)
    simp only [readRange, h0, h1]

/-- A write outside a range does not change what the range reads as. -/
theorem readRange_write_of_ge {m : Memory} {a n k : Nat} (b : Byte) (h : a + n ≤ k) :
    (m.write k b).readRange a n = m.readRange a n :=
  readRange_congr fun i hi => read_write_ne m b (by omega)

end Sys2Proof.Machine.Memory
end

