-- ==== Sys2Proof/Laws/State.lean ====
section
/-! SUPPORT. One lemma per field per named update of State, so that no proof unfolds a record update. -/

namespace Sys2Proof.Machine.State

variable (s : State)

@[simp] theorem sample_cfg (t : Nat) : (s.sample t).cfg = s.cfg := rfl
@[simp] theorem sample_st (t : Nat) : (s.sample t).st = s.st := rfl
@[simp] theorem sample_lenHi (t : Nat) : (s.sample t).lenHi = s.lenHi := rfl
@[simp] theorem sample_expectedLen (t : Nat) : (s.sample t).expectedLen = s.expectedLen := rfl
@[simp] theorem sample_count (t : Nat) : (s.sample t).count = s.count := rfl
@[simp] theorem sample_buf (t : Nat) : (s.sample t).buf = s.buf := rfl
@[simp] theorem sample_deadline (t : Nat) : (s.sample t).deadline = s.deadline := rfl
@[simp] theorem sample_tx (t : Nat) : (s.sample t).tx = s.tx := rfl
@[simp] theorem sample_now (t : Nat) : (s.sample t).now = t := rfl
@[simp] theorem sample_input (t : Nat) : (s.sample t).input = s.input := rfl
@[simp] theorem sample_ghost (t : Nat) : (s.sample t).ghost = s.ghost := rfl

@[simp] theorem note_cfg (e : TraceEntry) : (s.note e).cfg = s.cfg := rfl
@[simp] theorem note_st (e : TraceEntry) : (s.note e).st = s.st := rfl
@[simp] theorem note_lenHi (e : TraceEntry) : (s.note e).lenHi = s.lenHi := rfl
@[simp] theorem note_expectedLen (e : TraceEntry) : (s.note e).expectedLen = s.expectedLen := rfl
@[simp] theorem note_count (e : TraceEntry) : (s.note e).count = s.count := rfl
@[simp] theorem note_buf (e : TraceEntry) : (s.note e).buf = s.buf := rfl
@[simp] theorem note_deadline (e : TraceEntry) : (s.note e).deadline = s.deadline := rfl
@[simp] theorem note_tx (e : TraceEntry) : (s.note e).tx = s.tx := rfl
@[simp] theorem note_now (e : TraceEntry) : (s.note e).now = s.now := rfl
@[simp] theorem note_input (e : TraceEntry) : (s.note e).input = s.input := rfl
@[simp] theorem note_ghost (e : TraceEntry) : (s.note e).ghost = s.ghost ++ [e] := rfl

@[simp] theorem emit_cfg (bs : List Byte) : (s.emit bs).cfg = s.cfg := rfl
@[simp] theorem emit_st (bs : List Byte) : (s.emit bs).st = s.st := rfl
@[simp] theorem emit_lenHi (bs : List Byte) : (s.emit bs).lenHi = s.lenHi := rfl
@[simp] theorem emit_expectedLen (bs : List Byte) : (s.emit bs).expectedLen = s.expectedLen := rfl
@[simp] theorem emit_count (bs : List Byte) : (s.emit bs).count = s.count := rfl
@[simp] theorem emit_buf (bs : List Byte) : (s.emit bs).buf = s.buf := rfl
@[simp] theorem emit_deadline (bs : List Byte) : (s.emit bs).deadline = s.deadline := rfl
@[simp] theorem emit_tx (bs : List Byte) : (s.emit bs).tx = s.tx ++ bs := rfl
@[simp] theorem emit_now (bs : List Byte) : (s.emit bs).now = s.now := rfl
@[simp] theorem emit_input (bs : List Byte) : (s.emit bs).input = s.input := rfl
@[simp] theorem emit_ghost (bs : List Byte) : (s.emit bs).ghost = s.ghost := rfl

@[simp] theorem returnToIdle_cfg : s.returnToIdle.cfg = s.cfg := rfl
@[simp] theorem returnToIdle_st : s.returnToIdle.st = .idle := rfl
@[simp] theorem returnToIdle_lenHi : s.returnToIdle.lenHi = s.lenHi := rfl
@[simp] theorem returnToIdle_expectedLen : s.returnToIdle.expectedLen = s.expectedLen := rfl
@[simp] theorem returnToIdle_count : s.returnToIdle.count = s.count := rfl
@[simp] theorem returnToIdle_buf : s.returnToIdle.buf = [] := rfl
@[simp] theorem returnToIdle_deadline : s.returnToIdle.deadline = s.deadline := rfl
@[simp] theorem returnToIdle_tx : s.returnToIdle.tx = s.tx := rfl
@[simp] theorem returnToIdle_now : s.returnToIdle.now = s.now := rfl
@[simp] theorem returnToIdle_input : s.returnToIdle.input = s.input := rfl
@[simp] theorem returnToIdle_ghost : s.returnToIdle.ghost = s.ghost := rfl

@[simp] theorem discard_cfg (c : Cause) : (s.discard c).cfg = s.cfg := rfl
@[simp] theorem discard_st (c : Cause) : (s.discard c).st = .idle := rfl
@[simp] theorem discard_lenHi (c : Cause) : (s.discard c).lenHi = s.lenHi := rfl
@[simp] theorem discard_expectedLen (c : Cause) : (s.discard c).expectedLen = s.expectedLen := rfl
@[simp] theorem discard_count (c : Cause) : (s.discard c).count = s.count := rfl
@[simp] theorem discard_buf (c : Cause) : (s.discard c).buf = [] := rfl
@[simp] theorem discard_deadline (c : Cause) : (s.discard c).deadline = s.deadline := rfl
@[simp] theorem discard_tx (c : Cause) : (s.discard c).tx = s.tx := rfl
@[simp] theorem discard_now (c : Cause) : (s.discard c).now = s.now := rfl
@[simp] theorem discard_input (c : Cause) : (s.discard c).input = s.input := rfl
@[simp] theorem discard_ghost (c : Cause) : (s.discard c).ghost = s.ghost ++ [.discard c] := rfl

@[simp] theorem arm_cfg : (s.arm).cfg = s.cfg := rfl
@[simp] theorem arm_st : (s.arm).st = s.st := rfl
@[simp] theorem arm_lenHi : (s.arm).lenHi = s.lenHi := rfl
@[simp] theorem arm_expectedLen : (s.arm).expectedLen = s.expectedLen := rfl
@[simp] theorem arm_count : (s.arm).count = s.count := rfl
@[simp] theorem arm_buf : (s.arm).buf = s.buf := rfl
@[simp] theorem arm_deadline : (s.arm).deadline = s.now + s.cfg.tReasm := rfl
@[simp] theorem arm_tx : (s.arm).tx = s.tx := rfl
@[simp] theorem arm_now : (s.arm).now = s.now := rfl
@[simp] theorem arm_input : (s.arm).input = s.input := rfl
@[simp] theorem arm_ghost : (s.arm).ghost = s.ghost := rfl

@[simp] theorem bumpCount_cfg : (s.bumpCount).cfg = s.cfg := rfl
@[simp] theorem bumpCount_st : (s.bumpCount).st = s.st := rfl
@[simp] theorem bumpCount_lenHi : (s.bumpCount).lenHi = s.lenHi := rfl
@[simp] theorem bumpCount_expectedLen : (s.bumpCount).expectedLen = s.expectedLen := rfl
@[simp] theorem bumpCount_count : (s.bumpCount).count = s.count + 1 := rfl
@[simp] theorem bumpCount_buf : (s.bumpCount).buf = s.buf := rfl
@[simp] theorem bumpCount_deadline : (s.bumpCount).deadline = s.deadline := rfl
@[simp] theorem bumpCount_tx : (s.bumpCount).tx = s.tx := rfl
@[simp] theorem bumpCount_now : (s.bumpCount).now = s.now := rfl
@[simp] theorem bumpCount_input : (s.bumpCount).input = s.input := rfl
@[simp] theorem bumpCount_ghost : (s.bumpCount).ghost = s.ghost := rfl

@[simp] theorem startAccum_cfg (len : Half) : (s.startAccum len).cfg = s.cfg := rfl
@[simp] theorem startAccum_st (len : Half) : (s.startAccum len).st = .accum := rfl
@[simp] theorem startAccum_lenHi (len : Half) : (s.startAccum len).lenHi = s.lenHi := rfl
@[simp] theorem startAccum_expectedLen (len : Half) : (s.startAccum len).expectedLen = len := rfl
@[simp] theorem startAccum_count (len : Half) : (s.startAccum len).count = 0 := rfl
@[simp] theorem startAccum_buf (len : Half) : (s.startAccum len).buf = s.buf := rfl
@[simp] theorem startAccum_deadline (len : Half) : (s.startAccum len).deadline = s.deadline := rfl
@[simp] theorem startAccum_tx (len : Half) : (s.startAccum len).tx = s.tx := rfl
@[simp] theorem startAccum_now (len : Half) : (s.startAccum len).now = s.now := rfl
@[simp] theorem startAccum_input (len : Half) : (s.startAccum len).input = s.input := rfl
@[simp] theorem startAccum_ghost (len : Half) : (s.startAccum len).ghost = s.ghost := rfl

@[simp] theorem restart_cfg : (s.restart).cfg = s.cfg := rfl
@[simp] theorem restart_st : (s.restart).st = .idle := rfl
@[simp] theorem restart_lenHi : (s.restart).lenHi = s.lenHi := rfl
@[simp] theorem restart_expectedLen : (s.restart).expectedLen = s.expectedLen := rfl
@[simp] theorem restart_count : (s.restart).count = s.count := rfl
@[simp] theorem restart_buf : (s.restart).buf = [] := rfl
@[simp] theorem restart_deadline : (s.restart).deadline = s.deadline := rfl
@[simp] theorem restart_tx : (s.restart).tx = [] := rfl
@[simp] theorem restart_now : (s.restart).now = s.now := rfl
@[simp] theorem restart_input : (s.restart).input = s.input := rfl
@[simp] theorem restart_ghost : (s.restart).ghost = [] := rfl

end Sys2Proof.Machine.State
end

