-- ==== Sys2Proof/Laws/Ops.lean ====
section
/-! SUPPORT. What each shared operation can do, said once: the fields of a frame, the deadline check, the dispatcher, completion,
the buffer's access operations. -/

namespace Sys2Proof.Machine

/-! ## Fields of a frame -/

/-- The length is `256 * len_hi + len_lo` (30_encoding.md R74); nothing wraps (40_serial_frame_decoder.md R118). -/
theorem lengthOf_toNat (hi lo : Byte) : (lengthOf hi lo).toNat = hi.toNat * 256 + lo.toNat := by
  have h1 := hi.isLt
  have h2 := lo.isLt
  have h3 : (256 : Half).toNat = 256 := rfl
  simp only [lengthOf, BitVec.toNat_add, BitVec.toNat_mul, BitVec.toNat_setWidth, h3]
  omega

/-- The header that `Encode` writes for a length in range is read back as that length (R171). -/
theorem lengthOf_split {n : Nat} (h : n ≤ 65535) : (lengthOf (lenHiOf n) (lenLoOf n)).toNat = n := by
  rw [lengthOf_toNat]
  simp only [lenHiOf, lenLoOf, BitVec.toNat_ofNat]
  omega

/-- Splitting a length that was assembled from two bytes gives the two bytes. -/
theorem split_lengthOf (hi lo : Byte) :
    lenHiOf (lengthOf hi lo).toNat = hi ∧ lenLoOf (lengthOf hi lo).toNat = lo := by
  have h2 := lo.isLt
  have h1 := hi.isLt
  constructor <;>
  · apply BitVec.eq_of_toNat_eq
    simp only [lenHiOf, lenLoOf, lengthOf_toNat, BitVec.toNat_ofNat]
    omega

theorem half_eq_zero {len : Half} : len = 0 ↔ len.toNat = 0 := by
  constructor
  · rintro rfl; rfl
  · intro h; exact BitVec.eq_of_toNat_eq (by simpa using h)

@[simp] theorem encodeFrame_length (q : List Byte) : (encodeFrame q).length = 2 + q.length := by
  simp [encodeFrame]; omega

/-! ## The deadline -/

theorem armed_iff {s : State} : s.armed = true ↔ s.st ≠ .idle := by simp [State.armed]

theorem expired_iff {s : State} : s.expired = true ↔ s.st ≠ .idle ∧ s.deadline ≤ s.now := by
  simp [State.expired, State.armed]

/-- The check on an expired deadline discards (44_recovery_policy.md R188). -/
theorem checkDeadline_of_expired {s : State} (h1 : s.st ≠ .idle) (h2 : s.deadline ≤ s.now) :
    s.checkDeadline = s.discard .truncated := if_pos (expired_iff.2 ⟨h1, h2⟩)

/-- The check in IDLE does nothing (R187). -/
theorem checkDeadline_of_idle {s : State} (h : s.st = .idle) : s.checkDeadline = s :=
  if_neg fun he => (expired_iff.1 he).1 h

/-- The check before the deadline does nothing (R187). -/
theorem checkDeadline_of_lt {s : State} (h : s.now < s.deadline) : s.checkDeadline = s :=
  if_neg fun he => Nat.not_le.2 h (expired_iff.1 he).2

/-- All the check can do: nothing, or the discard of an expired frame. -/
theorem checkDeadline_cases (s : State) :
    (s.checkDeadline = s ∧ (s.st = .idle ∨ s.now < s.deadline)) ∨
    (s.checkDeadline = s.discard .truncated ∧ s.st ≠ .idle ∧ s.deadline ≤ s.now) := by
  by_cases h1 : s.st = .idle
  · exact .inl ⟨checkDeadline_of_idle h1, .inl h1⟩
  · rcases Nat.lt_or_ge s.now s.deadline with h2 | h2
    · exact .inl ⟨checkDeadline_of_lt h2, .inr h2⟩
    · exact .inr ⟨checkDeadline_of_expired h1 h2, h1, h2⟩

section
variable (s : State)

@[simp] theorem checkDeadline_cfg : s.checkDeadline.cfg = s.cfg := by unfold State.checkDeadline; split <;> rfl
@[simp] theorem checkDeadline_lenHi : s.checkDeadline.lenHi = s.lenHi := by unfold State.checkDeadline; split <;> rfl
@[simp] theorem checkDeadline_expectedLen : s.checkDeadline.expectedLen = s.expectedLen := by
  unfold State.checkDeadline; split <;> rfl
@[simp] theorem checkDeadline_count : s.checkDeadline.count = s.count := by unfold State.checkDeadline; split <;> rfl
@[simp] theorem checkDeadline_deadline : s.checkDeadline.deadline = s.deadline := by
  unfold State.checkDeadline; split <;> rfl
@[simp] theorem checkDeadline_tx : s.checkDeadline.tx = s.tx := by unfold State.checkDeadline; split <;> rfl
@[simp] theorem checkDeadline_now : s.checkDeadline.now = s.now := by unfold State.checkDeadline; split <;> rfl
@[simp] theorem checkDeadline_input : s.checkDeadline.input = s.input := by unfold State.checkDeadline; split <;> rfl

/-- After the check an armed deadline is ahead of the clock. -/
theorem checkDeadline_ahead (h : s.checkDeadline.st ≠ .idle) : s.now < s.deadline := by
  rcases checkDeadline_cases s with ⟨he, h1 | h1⟩ | ⟨he, -, -⟩
  · exact absurd h1 (he ▸ h)
  · exact h1
  · exact absurd (by rw [he]; rfl) h

/-- The check leaves `buf` alone, or it discards and every byte is absent. -/
theorem checkDeadline_buf : s.checkDeadline.buf = s.buf ∨ (s.checkDeadline.st = .idle ∧ s.checkDeadline.buf = []) := by
  rcases checkDeadline_cases s with ⟨he, -⟩ | ⟨he, -, -⟩
  · exact .inl (by rw [he])
  · exact .inr (by rw [he]; exact ⟨rfl, rfl⟩)

/-- The check only ever leaves `st` or sets it to IDLE. -/
theorem checkDeadline_st : s.checkDeadline.st = s.st ∨ s.checkDeadline.st = .idle := by
  rcases checkDeadline_cases s with ⟨he, -⟩ | ⟨he, -, -⟩
  · exact .inl (by rw [he])
  · exact .inr (by rw [he]; rfl)

end

/-! ## Dispatch and completion -/

/-- The dispatcher recognises exactly the payload `08 01` (42_frame_dispatcher.md R150, R153). -/
theorem recognised_iff {p : List Byte} : recognised p = true ↔ p = pingPayload := by
  unfold recognised pingPayload
  split
  · simp
  · rename_i h
    simp only [Bool.false_eq_true, false_iff]
    rintro rfl
    exact h _ _ rfl

theorem dispatch_ping (c : Config) : dispatch c pingPayload = some (pongPayload c.protocolRev) := rfl

theorem dispatch_of_ne (c : Config) {p : List Byte} (h : p ≠ pingPayload) : dispatch c p = none :=
  if_neg fun hr => h (recognised_iff.1 hr)

theorem encode_pong (r : ProtocolRev) : encodeFrame (pongPayload r) = pongFrame r := by cases r <;> rfl

theorem responseTo_ping (c : Config) : responseTo c pingPayload = pongFrame c.protocolRev := by
  rw [← encode_pong]; rfl

theorem responseTo_of_ne (c : Config) {p : List Byte} (h : p ≠ pingPayload) : responseTo c p = [] := by
  simp [responseTo, dispatch_of_ne c h]

theorem completionEntries_ping (c : Config) : completionEntries c pingPayload = [.complete pingPayload] := rfl

theorem completionEntries_of_ne (c : Config) {p : List Byte} (h : p ≠ pingPayload) :
    completionEntries c p = [.complete p, .unknown] := by
  simp [completionEntries, dispatch_of_ne c h]

/-- Completion (40_serial_frame_decoder.md R108), whatever the dispatcher says. -/
theorem completeFrame_eq (s : State) (p : List Byte) :
    s.completeFrame p =
      { s with st := .idle, buf := [], tx := s.tx ++ responseTo s.cfg p, ghost := s.ghost ++ completionEntries s.cfg p } := by
  unfold State.completeFrame responseTo completionEntries
  cases dispatch s.cfg p with
  | none => simp [State.note, State.returnToIdle]
  | some q => simp [State.note, State.emit, State.returnToIdle]

section
variable (s : State) (p : List Byte)

@[simp] theorem completeFrame_cfg : (s.completeFrame p).cfg = s.cfg := by rw [completeFrame_eq]
@[simp] theorem completeFrame_st : (s.completeFrame p).st = .idle := by rw [completeFrame_eq]
@[simp] theorem completeFrame_lenHi : (s.completeFrame p).lenHi = s.lenHi := by rw [completeFrame_eq]
@[simp] theorem completeFrame_expectedLen : (s.completeFrame p).expectedLen = s.expectedLen := by rw [completeFrame_eq]
@[simp] theorem completeFrame_count : (s.completeFrame p).count = s.count := by rw [completeFrame_eq]
@[simp] theorem completeFrame_buf : (s.completeFrame p).buf = [] := by rw [completeFrame_eq]
@[simp] theorem completeFrame_deadline : (s.completeFrame p).deadline = s.deadline := by rw [completeFrame_eq]
@[simp] theorem completeFrame_tx : (s.completeFrame p).tx = s.tx ++ responseTo s.cfg p := by rw [completeFrame_eq]
@[simp] theorem completeFrame_now : (s.completeFrame p).now = s.now := by rw [completeFrame_eq]
@[simp] theorem completeFrame_input : (s.completeFrame p).input = s.input := by rw [completeFrame_eq]
@[simp] theorem completeFrame_ghost : (s.completeFrame p).ghost = s.ghost ++ completionEntries s.cfg p := by
  rw [completeFrame_eq]

end

/-! ## The buffer's operations -/

/-- MemWrite below the capacity stores the byte (20_memory.md R52). -/
theorem memWrite_of_lt {s : State} {a : Nat} (b : Byte) (h : a < s.cfg.maxFrameLen) :
    memWrite a b s = .next { s with buf := s.buf.write a b } := if_pos h

/-- APPEND inside the buffer stores its byte at `storeIndex` and changes nothing else (41_reassembly_buffer.md R131). -/
theorem append_of_lt {s : State} (b : Byte) (h : storeIndex s < s.cfg.maxFrameLen) :
    append b s = .next { s with buf := s.buf.write (storeIndex s) b } := memWrite_of_lt b h

/-- MemRead of bytes below `count`, all of them written (R53). -/
theorem memRead_of_readRange {s : State} {a n : Nat} {bs : List Byte} (h1 : a + n ≤ s.count.toNat)
    (h2 : s.buf.readRange a n = some bs) : memRead a n s = .ok bs := by
  simp [memRead, h1, h2]

/-- All MemRead can answer. -/
theorem memRead_eq_ok {s : State} {a n : Nat} {bs : List Byte} :
    memRead a n s = .ok bs ↔ a + n ≤ s.count.toNat ∧ s.buf.readRange a n = some bs := by
  unfold memRead
  split
  · rename_i h
    split
    · rename_i bs' hb
      simp [h, hb]
    · rename_i hb
      simp [hb]
  · rename_i h
    simp [h]

/-! ## Sequencing -/

@[simp] theorem andThen_next (s : State) (f : State → Result) : andThen (.next s) f = f s := rfl
@[simp] theorem andThen_fault (r : Fault) (f : State → Result) : andThen (.fault r) f = .fault r := rfl
@[simp] theorem andThen_refused (r : Refusal) (f : State → Result) : andThen (.refused r) f = .refused r := rfl

theorem andThen_eq_next {o : Result} {f : State → Result} {t : State} :
    andThen o f = .next t ↔ ∃ u, o = .next u ∧ f u = .next t := by
  cases o <;> simp [andThen]

theorem andThen_assoc (o : Result) (f g : State → Result) :
    andThen (andThen o f) g = andThen o fun s => andThen (f s) g := by
  cases o <;> rfl

@[simp] theorem andThen_pure (o : Result) : andThen o .next = o := by cases o <;> rfl

end Sys2Proof.Machine
end

