-- ==== Sys2Proof/Laws/Exec.lean ====
section
/-! SUPPORT. What each instruction can do, said once: the outcome of every meaning, and the inversion of `exec`. -/

namespace Sys2Proof.Machine

/-- The state after PAYLOAD has stored its byte and counted it (40_serial_frame_decoder.md R106). -/
def State.stored (s : State) (b : Byte) : State :=
  { s with buf := s.buf.write (storeIndex s) b, count := s.count + 1 }

section
variable (s : State) (b : Byte)

@[simp] theorem stored_cfg : (s.stored b).cfg = s.cfg := rfl
@[simp] theorem stored_st : (s.stored b).st = s.st := rfl
@[simp] theorem stored_lenHi : (s.stored b).lenHi = s.lenHi := rfl
@[simp] theorem stored_expectedLen : (s.stored b).expectedLen = s.expectedLen := rfl
@[simp] theorem stored_count : (s.stored b).count = s.count + 1 := rfl
@[simp] theorem stored_buf : (s.stored b).buf = s.buf.write s.count.toNat b := rfl
@[simp] theorem stored_deadline : (s.stored b).deadline = s.deadline := rfl
@[simp] theorem stored_tx : (s.stored b).tx = s.tx := rfl
@[simp] theorem stored_now : (s.stored b).now = s.now := rfl
@[simp] theorem stored_input : (s.stored b).input = s.input := rfl
@[simp] theorem stored_ghost : (s.stored b).ghost = s.ghost := rfl

end

/-! ## HDR_LO, branch by branch (R102 to R105) -/

theorem execHdrLo_oversize {s : State} {b : Byte} (h : s.cfg.maxFrameLen < (lengthOf s.lenHi b).toNat) :
    exec (.hdrLo b) s = .next (s.discard .oversize) := by
  simp [exec, execHdrLo, execOversize, oversizeLen, h]

theorem execHdrLo_zero {s : State} {b : Byte} (h : (lengthOf s.lenHi b).toNat = 0) :
    exec (.hdrLo b) s = .next (s.completeFrame []) := by
  simp only [exec, execHdrLo, execEmpty, oversizeLen, zeroLen, half_eq_zero, h]
  simp

theorem execHdrLo_start {s : State} {b : Byte} (h1 : 1 ≤ (lengthOf s.lenHi b).toNat)
    (h2 : (lengthOf s.lenHi b).toNat ≤ s.cfg.maxFrameLen) :
    exec (.hdrLo b) s = .next (s.startAccum (lengthOf s.lenHi b)) := by
  simp only [exec, execHdrLo, oversizeLen, zeroLen, half_eq_zero]
  rw [if_neg (by simpa using h2), if_neg (by simp; omega)]

/-! ## PAYLOAD, byte by byte (R106, R107) -/

/-- PAYLOAD once its write is defined: store, count, and complete when the count reaches `expected_len`. -/
theorem execPayload_of_lt {s : State} {b : Byte} (h : s.count.toNat < s.cfg.maxFrameLen) :
    exec (.payload b) s =
      if s.count + 1 = s.expectedLen then finishPayload (s.stored b) else .next (s.stored b) := by
  simp only [exec, execPayload, append, storeIndex, memWrite_of_lt b h, andThen_next, State.payloadComplete,
    decide_eq_true_eq]
  rfl

/-- PAYLOAD where its write is not defined (20_memory.md R52; log 21). -/
theorem execPayload_of_ge {s : State} {b : Byte} (h : s.cfg.maxFrameLen ≤ s.count.toNat) :
    exec (.payload b) s = .fault (.bufWriteUndefined s.count.toNat) := by
  simp [exec, execPayload, append, storeIndex, memWrite, Nat.not_lt.2 h]

/-- A payload byte that is not the last. -/
theorem execPayload_mid {s : State} {b : Byte} (h1 : s.count.toNat < s.cfg.maxFrameLen)
    (h2 : s.count + 1 ≠ s.expectedLen) : exec (.payload b) s = .next (s.stored b) := by
  rw [execPayload_of_lt h1, if_neg h2]

theorem count_succ_toNat {c e : Half} (h : c.toNat < e.toNat) : (c + 1).toNat = c.toNat + 1 := by
  have h1 := e.isLt
  have h2 : (1 : Half).toNat = 1 := rfl
  rw [BitVec.toNat_add, h2]
  omega

/-- The last payload byte: the bytes stored before it and the byte itself go to completion. -/
theorem execPayload_last {s : State} {b : Byte} {p : List Byte} (h1 : s.count.toNat < s.cfg.maxFrameLen)
    (h2 : s.count.toNat + 1 = s.expectedLen.toNat) (h3 : s.buf.readRange 0 s.count.toNat = some p) :
    exec (.payload b) s = .next ((s.stored b).completeFrame (p ++ [b])) := by
  have hc : (s.count + 1).toNat = s.count.toNat + 1 := count_succ_toNat (e := s.expectedLen) (by omega)
  have he : s.count + 1 = s.expectedLen := BitVec.eq_of_toNat_eq (by omega)
  have hr : (s.stored b).buf.readRange 0 (s.count.toNat + 1) = some (p ++ [b]) :=
    Memory.readRange_snoc (by simpa using (Memory.readRange_write_of_ge b (by omega)).trans h3) (by simp)
  have ht : take (s.stored b) = .ok (p ++ [b]) :=
    memRead_of_readRange (by rw [stored_count, hc, stored_expectedLen]; omega) (by rw [stored_expectedLen, ← h2]; exact hr)
  rw [execPayload_of_lt h1, if_pos he]
  simp only [finishPayload, ht]

/-! ## All an instruction can do -/

/-- All PAYLOAD can do when it answers a next state. -/
theorem execPayload_next {s t : State} {b : Byte} (h : exec (.payload b) s = .next t) :
    s.count.toNat < s.cfg.maxFrameLen ∧
      ((s.count + 1 ≠ s.expectedLen ∧ t = s.stored b) ∨
        (s.count + 1 = s.expectedLen ∧ ∃ p, take (s.stored b) = .ok p ∧ t = (s.stored b).completeFrame p)) := by
  rcases Nat.lt_or_ge s.count.toNat s.cfg.maxFrameLen with h1 | h1
  · refine ⟨h1, ?_⟩
    rw [execPayload_of_lt h1] at h
    split at h
    · rename_i he
      refine .inr ⟨he, ?_⟩
      unfold finishPayload at h
      split at h
      · rename_i p hp
        exact ⟨p, hp, by simpa using h.symm⟩
      · cases h
    · rename_i he
      exact .inl ⟨he, by simpa using h.symm⟩
  · rw [execPayload_of_ge h1] at h
    cases h

/-- All HDR_LO can do: it always answers a next state. -/
theorem execHdrLo_cases (s : State) (b : Byte) :
    (s.cfg.maxFrameLen < (lengthOf s.lenHi b).toNat ∧ exec (.hdrLo b) s = .next (s.discard .oversize)) ∨
    ((lengthOf s.lenHi b).toNat = 0 ∧ exec (.hdrLo b) s = .next (s.completeFrame [])) ∨
    (1 ≤ (lengthOf s.lenHi b).toNat ∧ (lengthOf s.lenHi b).toNat ≤ s.cfg.maxFrameLen ∧
      exec (.hdrLo b) s = .next (s.startAccum (lengthOf s.lenHi b))) := by
  rcases Nat.lt_or_ge s.cfg.maxFrameLen (lengthOf s.lenHi b).toNat with h | h
  · exact .inl ⟨h, execHdrLo_oversize h⟩
  · rcases Nat.eq_zero_or_pos (lengthOf s.lenHi b).toNat with h0 | h0
    · exact .inr (.inl ⟨h0, execHdrLo_zero h0⟩)
    · exact .inr (.inr ⟨h0, h, execHdrLo_start h0 h⟩)

/-- No instruction touches the parameters, the clock input or the pending events. -/
theorem exec_environment {i : Instr} {s t : State} (h : exec i s = .next t) :
    t.cfg = s.cfg ∧ t.now = s.now ∧ t.input = s.input := by
  cases i with
  | hdrLo b =>
    rcases execHdrLo_cases s b with ⟨-, he⟩ | ⟨-, he⟩ | ⟨-, -, he⟩ <;>
    · rw [he] at h
      cases h
      simp
  | payload b =>
    obtain ⟨-, ⟨-, rfl⟩ | ⟨-, p, -, rfl⟩⟩ := execPayload_next h <;> simp
  | hdrHi b =>
    cases h
    exact ⟨rfl, rfl, rfl⟩
  | _ =>
    cases h
    simp

end Sys2Proof.Machine
end

