-- ==== Sys2Proof/Laws/PerInstr.lean ====
section
/-! SUPPORT. The statements about every instruction as syntax, one lemma a constructor. -/

namespace Sys2Proof.Laws.EncodingWidth

open Sys2Proof.Machine

/-- The number of bytes a row has on the wire: column "width" of the table (30_encoding.md R77, R78), in bytes. -/
def bytes : Instr → Nat
  | .ping => 4
  | .pongV1 => 4
  | .pongV2 => 6
  | .empty => 2
  | .oversize _ => 2
  | .unknown p => 2 + p.length
  | .hdrHi _ => 1
  | .hdrLo _ => 1
  | .payload _ => 1

/-- The encoder writes as many bytes as the table's row is wide (30_encoding.md R72, R77, R78). -/
def Statement (i : Instr) : Prop := (encode i).length = bytes i

theorem ping : Statement .ping := rfl
theorem pongV1 : Statement .pongV1 := rfl
theorem pongV2 : Statement .pongV2 := rfl
theorem empty : Statement .empty := rfl
theorem oversize (len : Half) : Statement (.oversize len) := rfl
theorem unknown (p : List Byte) : Statement (.unknown p) := encodeFrame_length p
theorem hdrHi (b : Byte) : Statement (.hdrHi b) := rfl
theorem hdrLo (b : Byte) : Statement (.hdrLo b) := rfl
theorem payload (b : Byte) : Statement (.payload b) := rfl

end Sys2Proof.Laws.EncodingWidth
end

