-- ==== Sys2Proof/Laws/Step.lean ====
section
/-! SUPPORT. What an event can do: reception leaves the environment's side alone, chunks concatenate, and a run is its events one
after another. -/

namespace Sys2Proof.Machine

/-! ## Reception -/

/-- A byte in IDLE is a first length byte (40_serial_frame_decoder.md R101). -/
theorem rxByte_idle {s : State} (b : Byte) (h : s.st = .idle) :
    rxByte b s = .next { s with lenHi := b, deadline := s.now + s.cfg.tReasm, st := .hdr } := by
  simp only [rxByte, checkDeadline_of_idle h, h, decodeByte]
  rfl

/-- A byte after the deadline discards the old frame and starts a new one (44_recovery_policy.md R193). -/
theorem rxByte_expired {s : State} (b : Byte) (h1 : s.st ≠ .idle) (h2 : s.deadline ≤ s.now) :
    rxByte b s = .next { s with
      lenHi := b, buf := [], deadline := s.now + s.cfg.tReasm, st := .hdr, ghost := s.ghost ++ [.discard .truncated] } := by
  simp only [rxByte, checkDeadline_of_expired h1 h2, State.discard_st, decodeByte]
  rfl

/-- A byte in time is the next byte of the frame in flight (45_engine_operations.md R202, R210). -/
theorem rxByte_inTime {s : State} (b : Byte) (h : s.now < s.deadline) : rxByte b s = exec (decodeByte s.st b) s := by
  simp only [rxByte, checkDeadline_of_lt h]

theorem rxByte_environment {b : Byte} {s t : State} (h : rxByte b s = .next t) :
    t.cfg = s.cfg ∧ t.now = s.now ∧ t.input = s.input := by
  simpa using exec_environment h

theorem rxBytes_environment {bs : List Byte} {s t : State} (h : rxBytes bs s = .next t) :
    t.cfg = s.cfg ∧ t.now = s.now ∧ t.input = s.input := by
  induction bs generalizing s with
  | nil => cases h; exact ⟨rfl, rfl, rfl⟩
  | cons b bs ih =>
    obtain ⟨u, hu, ht⟩ := andThen_eq_next.1 h
    obtain ⟨h1, h2, h3⟩ := rxByte_environment hu
    obtain ⟨k1, k2, k3⟩ := ih ht
    exact ⟨k1.trans h1, k2.trans h2, k3.trans h3⟩

/-- The bytes of two byte lists in a row are the bytes of their concatenation. -/
theorem rxBytes_append (bs cs : List Byte) (s : State) : rxBytes (bs ++ cs) s = andThen (rxBytes bs s) (rxBytes cs) := by
  induction bs generalizing s with
  | nil => rfl
  | cons b bs ih =>
    show andThen (rxByte b s) (rxBytes (bs ++ cs)) = andThen (andThen (rxByte b s) (rxBytes bs)) (rxBytes cs)
    rw [andThen_assoc]
    congr 1
    exact funext ih

/-- A chunk is its bytes, or the check alone. -/
theorem runChunk_cons (b : Byte) (bs : List Byte) (s : State) : runChunk (b :: bs) s = rxBytes (b :: bs) s := rfl

/-! ## Events -/

/-- No event writes the parameters or the events after it. -/
theorem runEvent_environment {e : Event} {s t : State} (h : runEvent e s = .next t) :
    t.cfg = s.cfg ∧ t.input = s.input := by
  cases e with
  | reset => cases h; simp
  | rx b n =>
    obtain ⟨h1, -, h3⟩ := rxByte_environment h
    exact ⟨h1, h3⟩
  | chunk bs n =>
    cases bs with
    | nil => cases h; simp
    | cons b bs =>
      obtain ⟨h1, -, h3⟩ := rxBytes_environment h
      exact ⟨h1, h3⟩
  | tick n => cases h; simp

theorem step_nil {s : State} (h : s.input = []) : step s = .next s := by
  simp only [step, runNext, h]

theorem step_cons {s : State} {e : Event} {es : List Event} (h : s.input = e :: es) :
    step s = runEvent e { s with input := es } := by
  simp only [step, runNext, h]

/-! ## Runs -/

@[simp] theorem runAll_nil (s : State) : runAll [] s = .next { s with input := [] } := rfl

@[simp] theorem runFor_zero (s : State) : runFor 0 s = .next s := rfl

theorem runFor_succ (n : Nat) (s : State) : runFor (n + 1) s = andThen (step s) (runFor n) := rfl

/-- The model's own run is the host's run of the machine. -/
theorem runFor_eq_core_run (n : Nat) (s : State) : runFor n s = Host.Core.run core n s := by
  induction n generalizing s with
  | zero => rfl
  | succ n ih =>
    have h : Host.Core.run core (n + 1) s = andThen (step s) (fun t => Host.Core.run core n t) := by
      cases h : step s <;>
      · have h' : core.step s = step s := rfl
        rw [h] at h'
        simp only [Host.Core.run]
        rw [h']
        rfl
    rw [h]
    show andThen (step s) (runFor n) = _
    congr 1
    exact funext ih

/-- A run is its first event and then the run of the rest. -/
theorem runAll_cons (e : Event) (es : List Event) (s : State) :
    runAll (e :: es) s = andThen (runEvent e { s with input := es }) (runAll es) := by
  unfold runAll
  rw [List.length_cons, runFor_succ, step_cons (s := { s with input := e :: es }) rfl]
  cases h : runEvent e { s with input := es } with
  | next t =>
    obtain ⟨-, rfl⟩ := runEvent_environment h
    rfl
  | fault r => rfl
  | refused r => rfl

/-- The list of events a state carries does not matter to a run that replaces it. -/
@[simp] theorem runAll_input (evs : List Event) (s : State) (es : List Event) :
    runAll evs { s with input := es } = runAll evs s := rfl

end Sys2Proof.Machine
end

