-- ==== Sys2Proof/Tests/Slice0.lean ====
section
/-! SUPPORT. The model's own tests: the checks of WellFormed, words written out from the encoding tables, vectors of
95_test_vectors.md one step at a time, and a witness for the hypotheses of each statement. -/

namespace Sys2Proof.Tests

open Sys2Proof.Machine

/-! ## Helpers -/

/-- The next state of an outcome, if it is one. -/
def nextOf : Result → Option State
  | .next s => some s
  | _ => none

/-- The example configuration with revision V2. -/
def exampleV2 : Config := { Config.specExample with protocolRev := .v2 }

/-- The smallest legal configuration (00_scope.md R8, R10), with revision V2. -/
def smallest : Config := { maxFrameLen := 2, tReasm := 1, protocolRev := .v2, tickPeriodUs := 1 }

/-- The largest frames (R8). -/
def largest : Config := { Config.specExample with maxFrameLen := 65535 }

/-- A state in HDR with deadline 100: `HDR(hi, 100)`. -/
def hdrAt (c : Config) (hi : Byte) : State := { State.resetWith c with st := .hdr, lenHi := hi, deadline := 100 }

/-- A state in ACCUM with deadline 100: `ACCUM(len, held, 100)`, where the bytes held are `08` each. -/
def accumAt (c : Config) (len : Half) (held : Nat) : State :=
  { State.resetWith c with
    st := .accum, expectedLen := len, count := BitVec.ofNat 16 held, deadline := 100,
    buf := (List.range held).map fun a => (a, 0x08) }

/-- An idle state of a run: one PING answered, the registers full of what it left, its bytes gone from the buffer. -/
def idleAt (c : Config) : State :=
  { State.resetWith c with
    expectedLen := 2, count := 2, deadline := 50,
    tx := pongFrame c.protocolRev, ghost := [.complete [0x08, 0x01]], now := 20 }

/-- The output and the decoder state after the given events. -/
def outcome (evs : List Event) (s : State) : Option (List Byte × RestingState) :=
  (nextOf (runAll evs s)).map fun t => (t.tx, t.st)

/-! ## WellFormed: an ill-formed term for each check (30_encoding.md R77, column "condition") -/

theorem test_wf_ping_needs_two_bytes : Instr.ping.wf { smallest with maxFrameLen := 1 } = false := by decide
theorem test_wf_pongV1_not_in_v2 : Instr.pongV1.wf exampleV2 = false := by decide
theorem test_wf_pongV2_not_in_v1 : Instr.pongV2.wf Config.specExample = false := by decide
theorem test_wf_oversize_not_at_the_maximum : (Instr.oversize 64).wf Config.specExample = false := by decide
theorem test_wf_unknown_not_empty : (Instr.unknown []).wf Config.specExample = false := by decide
theorem test_wf_unknown_not_above_the_maximum : (Instr.unknown [1, 2, 3]).wf smallest = false := by decide
theorem test_wf_unknown_not_the_ping : (Instr.unknown [0x08, 0x01]).wf Config.specExample = false := by decide
theorem test_config_range : ¬ ({ smallest with maxFrameLen := 1 } : Config).Valid ∧
    ¬ ({ largest with maxFrameLen := 65536 } : Config).Valid ∧ ¬ ({ smallest with tReasm := 0 } : Config).Valid := by decide

/-! ## Decoding: words written out from the tables of 30_encoding.md (R77, R78, R79) and 95_test_vectors.md -/

theorem test_decode_ping : (decodeReceived Config.specExample [0x00, 0x02, 0x08, 0x01, 0xaa]).toOption =
    some (.ping, [0xaa]) := by decide
theorem test_decode_pongV1 : (decodeSent [0x00, 0x02, 0x08, 0x02, 0x00]).toOption = some (.pongV1, [0x00]) := by decide
theorem test_decode_pongV2 : (decodeSent [0x00, 0x04, 0x08, 0x02, 0x10, 0x01]).toOption = some (.pongV2, []) := by decide
/-- A PONG that is received is an unknown frame (VD20, VD21). -/
theorem test_decode_received_pong_is_unknown :
    (decodeReceived exampleV2 [0x00, 0x04, 0x08, 0x02, 0x10, 0x01]).toOption =
      some (.unknown [0x08, 0x02, 0x10, 0x01], []) := by decide
theorem test_decode_empty : (decodeReceived Config.specExample [0x00, 0x00, 0x00]).toOption = some (.empty, [0x00]) := by decide
/-- `0x0801 = 2049` is the length of `08 01` read as a header (VR2). -/
theorem test_decode_oversize : (decodeReceived Config.specExample [0x08, 0x01, 0x08]).toOption =
    some (.oversize 2049, [0x08]) := by decide
theorem test_decode_unknown : (decodeReceived Config.specExample [0x00, 0x03, 0x08, 0x01, 0x00]).toOption =
    some (.unknown [0x08, 0x01, 0x00], []) := by decide
theorem test_decode_byte_classes :
    decodeByte .idle 0x41 = .hdrHi 0x41 ∧ decodeByte .hdr 0x41 = .hdrLo 0x41 ∧ decodeByte .accum 0x41 = .payload 0x41 := by
  decide
/-- The table's words number byte 0 as the most significant (R79): VX1's header is `0x0041`. -/
theorem test_decode_table_words :
    decodeTableWord 16 0x0041 = some (.oversize 65) ∧ decodeTableWord 16 0x0001 = some (.unknown [0x00]) ∧
    decodeTableWord 8 0x41 = some (.hdrHi 0x41) ∧ decodeTableWord 7 0x41 = none := by decide

/-! ## Vectors of 95_test_vectors.md -/

/-- S1, S2: PING in one write, both revisions. -/
theorem test_ping_v1 : outcome [.chunk [0x00, 0x02, 0x08, 0x01] 0] State.reset = some ([0x00, 0x02, 0x08, 0x02], .idle) := by
  decide
theorem test_ping_v2 : outcome [.chunk [0x00, 0x02, 0x08, 0x01] 0] (State.resetWith exampleV2) =
    some ([0x00, 0x04, 0x08, 0x02, 0x10, 0x01], .idle) := by decide
/-- VD3, VD4: the empty frame is silent and does not disturb the next one. -/
theorem test_empty_then_ping : outcome [.chunk [0x00, 0x00, 0x00, 0x02, 0x08, 0x01] 0] State.reset =
    some ([0x00, 0x02, 0x08, 0x02], .idle) := by decide
/-- VD8, VD12: 65 is oversize under 64, and the bytes after the header are new headers. -/
theorem test_oversize_then_ping : outcome [.chunk [0x00, 0x41, 0x00, 0x02, 0x08, 0x01] 0] State.reset =
    some ([0x00, 0x02, 0x08, 0x02], .idle) := by decide
/-- VD17: no header is oversize at the largest setting. -/
theorem test_largest_header : (nextOf (exec (.hdrLo 0xff) (hdrAt largest 0xff))).map (fun t => (t.st, t.expectedLen, t.count)) =
    some (.accum, 65535, 0) := by decide
/-- VX3, VD20: unknown frames are dropped. -/
theorem test_unknown : outcome [.chunk [0x00, 0x02, 0x08, 0x02] 0] State.reset = some ([], .idle) := by decide
/-- VX1: the late byte is the first header byte of a fresh frame, with its own deadline. -/
theorem test_hdrHi_after_expiry :
    (nextOf (step { hdrAt Config.specExample 0x00 with input := [.rx 0x41 100] })).map
      (fun t => (t.st, t.lenHi, t.deadline, t.ghost)) = some (.hdr, 0x41, 200, [.discard .truncated]) := by decide
/-- R105: the second byte of the PING's header. -/
theorem test_hdrLo_starts : (nextOf (exec (.hdrLo 0x02) (hdrAt Config.specExample 0x00))).map
    (fun t => (t.st, t.expectedLen, t.count, t.deadline)) = some (.accum, 2, 0, 100) := by decide
/-- VB4: the stale byte is not joined with the new frame's first byte. -/
theorem test_payload_after_truncation :
    (nextOf (step { accumAt Config.specExample 2 1 with input := [.chunk [0x00, 0x02, 0x01] 100] })).map
      (fun t => (t.st, t.count, t.buf.read 0, t.deadline, t.tx)) = some (.accum, 1, some 0x01, 200, []) := by decide
/-- VR14: expiry beats completion. -/
theorem test_payload_too_late :
    (nextOf (step { accumAt Config.specExample 2 1 with input := [.rx 0x01 100] })).map (fun t => (t.st, t.lenHi, t.tx)) =
      some (.hdr, 0x01, []) := by decide
/-- VR1 and VR2: tick 99 is in time, tick 100 is too late. -/
theorem test_deadline_boundary :
    outcome [.chunk [0x00, 0x02] 0, .chunk [0x08, 0x01] 99] State.reset = some ([0x00, 0x02, 0x08, 0x02], .idle) ∧
    outcome [.chunk [0x00, 0x02] 0, .chunk [0x08, 0x01] 100] State.reset = some ([], .idle) := by decide
/-- VZ1: RESET in mid-frame; the next byte is a first header byte. -/
theorem test_reset_in_mid_frame :
    (nextOf (runAll [.chunk [0x00, 0x02, 0x08] 0, .reset, .rx 0x01 0] State.reset)).map (fun t => (t.st, t.lenHi, t.deadline)) =
      some (.hdr, 0x01, 100) := by decide
/-- VE5 to VE8: the header of 255, 256, 300 and 65535 bytes. -/
theorem test_encode_headers :
    (lenHiOf 255, lenLoOf 255) = (0x00, 0xff) ∧ (lenHiOf 256, lenLoOf 256) = (0x01, 0x00) ∧
    (lenHiOf 300, lenLoOf 300) = (0x01, 0x2c) ∧ (lenHiOf 65535, lenLoOf 65535) = (0xff, 0xff) := by decide
/-- A sent frame runs where a PING completes in an instance of its revision (log 12). -/
theorem test_fetch_word_pongV2 :
    (nextOf (step (State.reset.withFetchWord 48 0x000408021001))).map (fun t => (t.tx, t.st)) =
      some ([0x00, 0x04, 0x08, 0x02, 0x10, 0x01], .idle) := by decide
theorem test_fetch_word_ping :
    (nextOf (step (State.reset.withFetchWord 32 0x00020801))).map (fun t => (t.tx, t.st)) =
      some ([0x00, 0x02, 0x08, 0x02], .idle) := by decide

/-! ## States that meet the invariant -/

theorem idle_inv : (idleAt Config.specExample).Inv := by constructor <;> decide
theorem idle_smallest_inv : (idleAt smallest).Inv := by constructor <;> decide
theorem hdr_inv : (hdrAt Config.specExample 0x00).Inv := by constructor <;> decide
theorem accum_full_inv : (accumAt Config.specExample 64 63).Inv := by constructor <;> decide

/-! ## Witnesses: the hypotheses of each statement, together, at boundary values -/

/-- HdrLoStartsAccumulation at `L = 1`, `L = 64 = MAX_FRAME_LEN` and `L = 65535`. -/
theorem witness_HdrLoStartsAccumulation :
    (1 ≤ (hdrAt Config.specExample 0x00).lenHi.toNat * 256 + (0x01#8).toNat ∧
      (hdrAt Config.specExample 0x00).lenHi.toNat * 256 + (0x01#8).toNat ≤ Config.specExample.maxFrameLen) ∧
    (hdrAt Config.specExample 0x00).lenHi.toNat * 256 + (0x40#8).toNat = Config.specExample.maxFrameLen ∧
    (hdrAt largest 0xff).lenHi.toNat * 256 + (0xff#8).toNat = largest.maxFrameLen := by decide

theorem witness_ZeroLengthFrameCompletesAtOnce :
    (hdrAt Config.specExample 0x00).lenHi.toNat * 256 + (0x00#8).toNat = 0 := by decide

/-- OversizedHeaderIsDiscardedAtItsSecondByte at `MAX_FRAME_LEN + 1` and at 65535. -/
theorem witness_OversizedHeaderIsDiscardedAtItsSecondByte :
    (hdrAt smallest 0x00).cfg.maxFrameLen < (hdrAt smallest 0x00).lenHi.toNat * 256 + (0x03#8).toNat ∧
    Config.specExample.maxFrameLen < (hdrAt Config.specExample 0xff).lenHi.toNat * 256 + (0xff#8).toNat := by decide

/-- PayloadByteIsAppendedAtCount: the first byte of two, and the last of 64. -/
theorem witness_PayloadByteIsAppendedAtCount :
    let s := accumAt smallest 2 0
    let s' := accumAt Config.specExample 64 63
    (s.count.toNat < s.expectedLen.toNat ∧ s.expectedLen.toNat ≤ s.cfg.maxFrameLen ∧
      (∀ a, a < s.count.toNat → (s.buf.read a).isSome) ∧ s.count.toNat + 1 < s.expectedLen.toNat) ∧
    s'.count.toNat < s'.expectedLen.toNat ∧ s'.expectedLen.toNat ≤ s'.cfg.maxFrameLen ∧
      (∀ a, a < s'.count.toNat → (s'.buf.read a).isSome) := by decide

/-- LastPayloadByteCompletesTheFrame: a PING in the smallest buffer, and a frame of one byte. -/
theorem witness_LastPayloadByteCompletesTheFrame :
    ([0x08#8].length = (accumAt smallest 2 1).count.toNat ∧
      (∀ i, i < [0x08#8].length → (accumAt smallest 2 1).buf.read i = [0x08#8][i]?) ∧
      (accumAt smallest 2 1).count.toNat + 1 = (accumAt smallest 2 1).expectedLen.toNat ∧
      (accumAt smallest 2 1).expectedLen.toNat ≤ (accumAt smallest 2 1).cfg.maxFrameLen) ∧
    ([] : List Byte).length = (accumAt smallest 1 0).count.toNat ∧
    (accumAt smallest 1 0).count.toNat + 1 = (accumAt smallest 1 0).expectedLen.toNat := by decide

theorem witness_PingIsAnsweredWithThePongOfItsRevision :
    State.reset.cfg.protocolRev = .v1 ∧ (State.resetWith exampleV2).cfg.protocolRev = .v2 := by decide

theorem witness_UnrecognisedFramesAreDropped :
    ([0x08, 0x02] : List Byte) ≠ [0x08, 0x01] ∧ ([0x08, 0x01, 0x00] : List Byte) ≠ [0x08, 0x01] := by decide

/-- DiscardOnlyReturnsToIdle, PartialFrameIsGoneAfterItsDeadline, LateByteStartsAFreshFrame: the deadline itself. -/
theorem witness_DiscardOnlyReturnsToIdle :
    let s := { accumAt Config.specExample 2 1 with now := 100 }
    s.st ≠ .idle ∧ s.deadline ≤ s.now := by decide

theorem witness_DispatcherRecognisesExactlyThePing :
    dispatch Config.specExample [0x08, 0x01] = some [0x08, 0x02] ∧ dispatch exampleV2 [0x08, 0x01] = some [0x08, 0x02, 0x10, 0x01] ∧
    dispatch exampleV2 [0x08] = none := by decide

theorem witness_EncodedHeaderIsReadBackAsTheLength :
    ([] : List Byte).length ≤ 65535 ∧ (List.replicate 65535 (0xaa : Byte)).length ≤ 65535 :=
  ⟨by decide, List.length_replicate.le⟩

/-- DecodeOfEncodeGivesTheInstructionBack: every row with a condition of its own, at the edge of the condition. -/
theorem witness_DecodeOfEncodeGivesTheInstructionBack :
    smallest.Valid ∧ largest.Valid ∧ Instr.ping.wf smallest = true ∧ Instr.pongV2.wf smallest = true ∧
    Instr.pongV1.wf largest = true ∧ Instr.empty.wf smallest = true ∧ (Instr.oversize 3).wf smallest = true ∧
    (Instr.unknown [0x00]).wf smallest = true ∧ (Instr.unknown [0x08, 0x02]).wf smallest = true ∧
    (Instr.hdrHi 0xff).wf smallest = true ∧ (Instr.hdrLo 0xff).wf smallest = true ∧ (Instr.payload 0xff).wf smallest = true := by
  decide

theorem witness_DecodedBytesAreTheInstructionsEncoding :
    decode Config.specExample .received [0x00, 0x41, 0x00] = .ok (.oversize 65, [0x00]) := rfl

/-- OnlyIncompleteFramesAreNotDecoded: one header byte, and a payload one byte short. -/
theorem witness_OnlyIncompleteFramesAreNotDecoded :
    decode smallest .received [0x00] = .error .shortHeader ∧
    decode smallest .received [0x00, 0x02, 0x08] = .error .shortPayload := ⟨rfl, rfl⟩

/-- RxStepRunsTheDecodedByte: a byte in time (99) and a byte too late (100); the premise on `u` defines `u`. -/
theorem witness_RxStepRunsTheDecodedByte :
    let s := { accumAt Config.specExample 2 1 with input := [.rx 0x01 99] }
    let s' := { accumAt Config.specExample 2 1 with input := [.rx 0x01 100] }
    (s.input = .rx 0x01 99 :: [] ∧ ¬ (s.st ≠ .idle ∧ s.deadline ≤ 99)) ∧
    s'.input = .rx 0x01 100 :: [] ∧ s'.st ≠ .idle ∧ s'.deadline ≤ 100 := by decide

theorem witness_LateByteStartsAFreshFrame :
    let s := { hdrAt Config.specExample 0x00 with input := [.rx 0x41 100] }
    s.input = .rx 0x41 100 :: [] ∧ s.st ≠ .idle ∧ s.deadline ≤ 100 := by decide

/-- TickOnlyChecksTheDeadline: at the deadline, one tick before it, and in IDLE (VR8, VR9, VR10). -/
theorem witness_TickOnlyChecksTheDeadline :
    let s (n : Nat) := { accumAt Config.specExample 2 0 with input := [.tick n] }
    ((s 100).input = .tick 100 :: [] ∧ (s 100).st ≠ .idle ∧ (s 100).deadline ≤ 100) ∧
    ((s 99).input = .tick 99 :: [] ∧ 99 < (s 99).deadline) ∧ (idleAt smallest).st = .idle := by decide

theorem witness_ChunkIsItsRxEventsInOrder : ([0x00] : List Byte) ≠ [] := by decide

theorem witness_OneDeadlineCheckPerChunkIsEnough : 1 ≤ (State.resetWith smallest).cfg.tReasm := by decide

theorem witness_WaitingChangesNothing : (accumAt Config.specExample 2 1).input = [] := by decide

/-- InstructionsWriteOnlyTheirOwnRegisters and OnlyPayloadWritesTheBuffer: a byte that is stored. -/
theorem witness_InstructionsWriteOnlyTheirOwnRegisters :
    ∃ t, exec (.payload 0x01) (accumAt smallest 2 1) = .next t ∧ t.tx = pongFrame .v2 := ⟨_, rfl, rfl⟩

/-- OnlyPayloadWritesTheBuffer and DiscardedBytesAreAbsent: a byte that is stored, the last one, and a row that stores nothing. -/
theorem witness_OnlyPayloadWritesTheBuffer :
    (∃ t, exec (.payload 0x02) (accumAt Config.specExample 64 62) = .next t ∧ t.buf.read 62 = some 0x02) ∧
    (∃ t, exec (.payload 0x02) (accumAt Config.specExample 64 63) = .next t ∧ t.buf = []) ∧
    ∃ t, exec (.hdrHi 0x02) (idleAt smallest) = .next t := ⟨⟨_, rfl, by decide⟩, ⟨_, rfl, rfl⟩, _, rfl⟩

/-- DiscardedBytesAreAbsent: each premise of the first clause, and a step that discards three bytes. -/
theorem witness_DiscardedBytesAreAbsent :
    Instr.ping.view = .received ∧ (hdrAt smallest 0x00).lenHi.toNat * 256 + (0x00#8).toNat = 0 ∧
    smallest.maxFrameLen < (hdrAt smallest 0x00).lenHi.toNat * 256 + (0x03#8).toNat ∧
    (accumAt smallest 2 1).count + 1 = (accumAt smallest 2 1).expectedLen ∧
    let s := { accumAt Config.specExample 64 3 with input := [.tick 100] }
    (s.st ≠ .accum → s.buf = []) ∧ (nextOf (step s)).map (fun t => (t.st, t.buf)) = some (.idle, []) := by decide

/-- OnlyUndefinedBufferAccessesStop: both kinds of stop, and an instruction that goes on. -/
theorem witness_OnlyUndefinedBufferAccessesStop :
    exec (.payload 0x00) { accumAt smallest 2 0 with count := 2 } = .fault (.bufWriteUndefined 2) ∧
    exec (.payload 0x00) { accumAt smallest 2 0 with count := 1 } = .fault (.bufReadUndefined 0 2) ∧
    ∃ t, exec (.payload 0x00) (accumAt smallest 2 0) = .next t := ⟨rfl, rfl, _, rfl⟩

/-- A step that takes the last payload byte of the largest frame. -/
theorem witness_EveryStepKeepsTheInvariant :
    let s := { accumAt Config.specExample 64 63 with input := [.rx 0x08 99] }
    s.Inv ∧ ∃ t, step s = .next t ∧ t.count = 64 := ⟨by constructor <;> decide, _, rfl, by decide⟩

theorem witness_EveryEventIsHandled : (hdrAt Config.specExample 0x00).Inv ∧ (idleAt smallest).Inv :=
  ⟨hdr_inv, idle_smallest_inv⟩

theorem witness_ParametersNeverChange :
    ∃ t, step { hdrAt smallest 0x00 with input := [.rx 0x02 99, .reset] } = .next t ∧ t.st = .accum := ⟨_, rfl, by decide⟩

theorem witness_OutputStaysOnePongPerPing :
    (idleAt exampleV2).OutputShape ∧ ∃ t, step { idleAt exampleV2 with input := [.chunk [0x00, 0x02, 0x08, 0x01] 30] } = .next t ∧
      t.pings = 2 := ⟨rfl, _, rfl, rfl⟩

theorem witness_StoreIndexStaysInsideTheBuffer :
    (accumAt Config.specExample 64 63).Inv ∧ (accumAt Config.specExample 64 63).st = .accum := ⟨accum_full_inv, rfl⟩

theorem witness_DeadlineIsNeverMoved :
    let s := { accumAt Config.specExample 2 0 with input := [.rx 0x08 99] }
    s.input = .rx 0x08 99 :: [] ∧ s.st ≠ .idle ∧ 99 < s.deadline ∧ ∃ t, step s = .next t :=
  ⟨rfl, by decide, by decide, _, rfl⟩

theorem witness_PartialFrameIsGoneAfterItsDeadline :
    let s := { accumAt Config.specExample 2 0 with input := [.chunk [0x08, 0x01] 100] }
    let s' := { hdrAt Config.specExample 0x00 with input := [.tick 100] }
    (s.input = .chunk [0x08, 0x01] 100 :: [] ∧ s.st ≠ .idle ∧ s.deadline ≤ 100 ∧ ∃ t, step s = .next t) ∧
    s'.input = .tick 100 :: [] ∧ s'.st ≠ .idle ∧ s'.deadline ≤ 100 :=
  ⟨⟨rfl, by decide, by decide, _, rfl⟩, by decide⟩

theorem witness_AtMostOneDiscardPerByte :
    ∃ t, step { hdrAt Config.specExample 0x00 with input := [.rx 0x41 100] } = .next t ∧ t.discards = 1 := ⟨_, rfl, by decide⟩

theorem witness_GhostLogIsNeverRead :
    (∃ t, step { idleAt smallest with input := [.rx 0x00 30] } = .next t) ∧
    step { accumAt smallest 2 0 with count := 2, input := [.rx 0x00 30] } = .fault (.bufWriteUndefined 2) := ⟨⟨_, rfl⟩, rfl⟩

/-- UnspecifiedRegistersAreNeverRead: two states that differ in every register that means nothing in IDLE. -/
theorem witness_UnspecifiedRegistersAreNeverRead :
    let s := { idleAt Config.specExample with input := [.rx 0x00 30] }
    let s' := { State.reset with lenHi := 0xff, input := [.rx 0x00 30] }
    s.Inv ∧ s.SameMeaning s' ∧ s.input = s'.input ∧ s ≠ s' :=
  ⟨by constructor <;> decide, by constructor <;> decide, rfl, by decide⟩

/-- WholeFrameStepRunsItsRow: each received row, the longest UNKNOWN frame of the smallest buffer among them. -/
theorem witness_WholeFrameStepRunsItsRow :
    (idleAt smallest).cfg.Valid ∧ (idleAt smallest).st = .idle ∧
    (∀ i ∈ [Instr.ping, .empty, .oversize 3, .unknown [0x09, 0x01]], i.view = .received ∧ i.wf (idleAt smallest).cfg = true) := by
  decide

/-- FragmentationDoesNotMatter: the PING from tick 7 to the last tick in time, without and with its last byte, and before
its first. -/
theorem witness_FragmentationDoesNotMatter :
    let s := idleAt Config.specExample
    let evs := [Event.tick 7, .chunk [0x00, 0x02] 7, .rx 0x08 60, .tick 106]
    s.Inv ∧ s.st = .idle ∧ [0x08#8, 0x01#8].length ≤ s.cfg.maxFrameLen ∧
    (∀ e ∈ evs ++ [.rx 0x01 106], e.within 7 (7 + s.cfg.tReasm) = true) ∧
    encodeFrame [0x08, 0x01] = bytesOf evs ++ [0x01] ∧ encodeFrame [0x08, 0x01] = bytesOf (evs ++ [.rx 0x01 106]) ∧
    encodeFrame [0x08, 0x01] = bytesOf [.tick 7] ++ [0x00, 0x02, 0x08, 0x01] := by
  refine ⟨idle_inv, ?_⟩; decide

theorem witness_StrictPrefixIsSilent :
    let s := idleAt Config.specExample
    s.Inv ∧ s.st = .idle ∧ [0x08#8, 0x01#8].length ≤ s.cfg.maxFrameLen ∧ ([0x08, 0x01] : List Byte) ≠ [] ∧
    encodeFrame [0x08, 0x01] = bytesOf [.rx 0x00 0, .rx 0x02 99] ++ [0x08, 0x01] ∧
    (∀ e ∈ [Event.rx 0x00 0, .rx 0x02 99], e.within 0 (0 + s.cfg.tReasm) = true) ∧
    ∀ e ∈ [Event.tick 99, .tick 100, .tick 5000], e.isTick = true := by
  refine ⟨idle_inv, ?_⟩; decide

theorem witness_RecoveryIsIndependentOfTheOldFrame :
    let s := idleAt smallest
    s.Inv ∧ s.st = .idle ∧ [0x08#8, 0x01#8].length ≤ s.cfg.maxFrameLen ∧ ([0x01] : List Byte) ≠ [] ∧
    encodeFrame [0x08, 0x01] = bytesOf [.chunk [0x00, 0x02] 7, .rx 0x08 7] ++ [0x01] ∧
    (Event.chunk [0x00, 0x02] 7).bytes ≠ [] ∧ (Event.chunk [0x00, 0x02] 7).within 7 (7 + 1) = true ∧
    (∀ e ∈ [Event.rx 0x08 7], e.within 7 (7 + s.cfg.tReasm) = true) ∧
    (∀ e ∈ [Event.tick 8], e.isTick = true) ∧ 7 + s.cfg.tReasm ≤ 8 := by
  refine ⟨idle_smallest_inv, ?_⟩; decide

/-- TicksDoNotChangeTheOutput: VR11, which ends in an RX event. -/
theorem witness_TicksDoNotChangeTheOutput :
    let evs := [Event.chunk [0x00, 0x02] 0, .tick 100, .reset, .rx 0x00 100]
    (idleAt Config.specExample).Inv ∧ monotoneFrom 0 evs ∧ ∃ front e, evs = front ++ [e] ∧ e.isRx = true :=
  ⟨idle_inv, by simp [monotoneFrom], [.chunk [0x00, 0x02] 0, .tick 100, .reset], .rx 0x00 100, rfl, rfl⟩

theorem witness_SurplusBytesStartTheNextFrame :
    (idleAt smallest).Inv ∧ (idleAt smallest).st = .idle ∧ [0x08#8, 0x01#8].length ≤ (idleAt smallest).cfg.maxFrameLen ∧
    ([0x00] : List Byte) ≠ [] := by
  refine ⟨idle_smallest_inv, ?_⟩; decide

theorem witness_BytesAfterAnOversizedHeaderAreNewHeaders :
    (idleAt smallest).st = .idle ∧ 1 ≤ (idleAt smallest).cfg.tReasm ∧
    (idleAt smallest).cfg.maxFrameLen < (0x00#8).toNat * 256 + (0x03#8).toNat := by decide

theorem witness_ScenarioAPingInOneWrite :
    ((idleAt smallest).Inv ∧ (idleAt smallest).st = .idle) ∧
    (idleAt Config.specExample).Inv ∧ (idleAt Config.specExample).st = .idle := ⟨⟨idle_smallest_inv, rfl⟩, idle_inv, rfl⟩

/-- ScenarioBPingInTwoWrites: no gap, and the largest gap in time. -/
theorem witness_ScenarioBPingInTwoWrites :
    (idleAt Config.specExample).Inv ∧ (idleAt Config.specExample).st = .idle ∧ 7 ≤ 7 ∧
    7 < 7 + (idleAt Config.specExample).cfg.tReasm ∧ 7 ≤ 106 ∧ 106 < 7 + (idleAt Config.specExample).cfg.tReasm := by
  refine ⟨idle_inv, ?_⟩; decide

/-- UnknownTagFrameIsNeverAnswered: the two frames of S8, one in two pieces. -/
theorem witness_UnknownTagFrameIsNeverAnswered :
    let s := idleAt Config.specExample
    s.Inv ∧ s.st = .idle ∧ [0x08#8, 0x03#8].length ≤ s.cfg.maxFrameLen ∧
    ([0x08, 0x03] : List Byte) ≠ [0x08, 0x01] ∧ ([0x09, 0x01] : List Byte) ≠ [0x08, 0x01] ∧
    encodeFrame [0x08, 0x03] = bytesOf [.chunk [0x00, 0x02, 0x08] 0, .rx 0x03 99] ∧
    encodeFrame [0x09, 0x01] = bytesOf [.chunk [0x00, 0x02, 0x09, 0x01] 1] ∧
    (∀ e ∈ [Event.chunk [0x00, 0x02, 0x08] 0, .rx 0x03 99, .chunk [0x00, 0x02, 0x09, 0x01] 1],
      e.within 0 (0 + s.cfg.tReasm) = true) ∧
    ∀ e ∈ [Event.tick 0, .tick 100], e.isTick = true := by
  refine ⟨idle_inv, ?_⟩; decide

theorem witness_ScenarioCLossRecovery :
    (idleAt Config.specExample).Inv ∧ (idleAt Config.specExample).st = .idle ∧
    (∀ e ∈ [Event.tick 500, .tick 1000], e.isTick = true) ∧ 0 + (idleAt Config.specExample).cfg.tReasm ≤ 100 := by
  refine ⟨idle_inv, ?_⟩; decide

/-- RecoveryWithinTheDocumentsTime: the example configuration, exactly 100 ms later (S7). -/
theorem witness_RecoveryWithinTheDocumentsTime :
    (idleAt Config.specExample).Inv ∧ (idleAt Config.specExample).st = .idle ∧ Config.specExample.MeetsDocumentRecovery ∧
    0 < Config.specExample.tickPeriodUs ∧
    0 * Config.specExample.tickPeriodUs + 100000 ≤ 100 * Config.specExample.tickPeriodUs :=
  ⟨idle_inv, rfl, by unfold Config.MeetsDocumentRecovery; decide, by decide, by decide⟩

end Sys2Proof.Tests
end

section
/-! PROOFS of the serial frame decoder (spec/40_serial_frame_decoder.md): the equations its statements need, then the state
that the bytes of a whole accepted frame lead to, and the statements settled from them. -/

namespace Sys2Proof.Machine

/-! ## Lengths, dispatch and chunks -/

/-- The assembled length as a number cut to 16 bits, the form the statements write it in. -/
theorem ofNat_header_eq_lengthOf (hi lo : Byte) : BitVec.ofNat 16 (hi.toNat * 256 + lo.toNat) = lengthOf hi lo := by
  rw [← lengthOf_toNat, BitVec.ofNat_toNat, BitVec.setWidth_eq]

/-- A length in range is held in 16 bits. -/
theorem toNat_ofNat_length {n : Nat} (h : n ≤ 65535) : (BitVec.ofNat 16 n).toNat = n := by
  rw [BitVec.toNat_ofNat, Nat.mod_eq_of_lt (by omega)]

/-- The response to a payload: the PONG to `08 01`, nothing to any other. -/
theorem responseTo_eq_ite (c : Config) (p : List Byte) :
    responseTo c p = if p = pingPayload then pongFrame c.protocolRev else [] := by
  split
  · subst p; exact responseTo_ping c
  · exact responseTo_of_ne c ‹_›

/-- The log of a completion: `UNKNOWN` follows for every payload but `08 01`. -/
theorem completionEntries_eq_ite (c : Config) (p : List Byte) :
    completionEntries c p = if p = pingPayload then [.complete p] else [.complete p, .unknown] := by
  split
  · subst p; exact completionEntries_ping c
  · exact completionEntries_of_ne c ‹_›

/-- A step on a chunk that is not empty receives its bytes at the chunk's time (45_engine_operations.md R203). -/
theorem step_chunk {s : State} {bs : List Byte} {n : Nat} {es : List Event} (h : s.input = .chunk bs n :: es)
    (hne : bs ≠ []) : step s = rxBytes bs { s with input := es, now := n } := by
  rw [step_cons h]
  cases bs with
  | nil => exact absurd rfl hne
  | cons b bs => rfl

/-! ## The header of a frame -/

/-- The state after a first length byte in IDLE (R101). -/
def State.heldHeader (s : State) (hi : Byte) : State :=
  { s with lenHi := hi, deadline := s.now + s.cfg.tReasm, st := .hdr }

/-- Two length bytes received together in IDLE: the first is held and the second, in time, is a HDR_LO. -/
theorem rxBytes_header {s : State} (hi lo : Byte) (bs : List Byte) (hst : s.st = .idle) (hT : 1 ≤ s.cfg.tReasm) :
    rxBytes (hi :: lo :: bs) s = andThen (exec (.hdrLo lo) (s.heldHeader hi)) (rxBytes bs) := by
  have hahead : (s.heldHeader hi).now < (s.heldHeader hi).deadline := Nat.lt_add_of_pos_right hT
  have hlo : rxByte lo (s.heldHeader hi) = exec (.hdrLo lo) (s.heldHeader hi) := rxByte_inTime lo hahead
  calc rxBytes (hi :: lo :: bs) s
      = andThen (rxByte hi s) (rxBytes (lo :: bs)) := rfl
    _ = andThen (rxByte lo (s.heldHeader hi)) (rxBytes bs) := by rw [rxByte_idle hi hst]; rfl
    _ = _ := by rw [hlo]

/-- The second length byte of a frame of `n` bytes, `n` not 0, starts accumulation with that length (R105, R171). -/
theorem execHdrLo_lenLoOf {s : State} {n : Nat} (h1 : 1 ≤ n) (h2 : n ≤ s.cfg.maxFrameLen) (h3 : n ≤ 65535) :
    exec (.hdrLo (lenLoOf n)) (s.heldHeader (lenHiOf n)) =
      .next ((s.heldHeader (lenHiOf n)).startAccum (BitVec.ofNat 16 n)) := by
  have hlen : (lengthOf (lenHiOf n) (lenLoOf n)).toNat = n := lengthOf_split h3
  have hval : lengthOf (lenHiOf n) (lenLoOf n) = BitVec.ofNat 16 n := by
    rw [← ofNat_header_eq_lengthOf, ← lengthOf_toNat, hlen]
  rw [← hval]
  exact execHdrLo_start (h1.trans_eq hlen.symm) (hlen.trans_le h2)

/-! ## The payload of a frame -/

/-- ACCUM before the deadline, with the payload bytes `q` stored and `missing` bytes still to come. -/
structure State.Accumulating (s : State) (q : List Byte) (missing : Nat) : Prop where
  accum : s.st = .accum
  inTime : s.now < s.deadline
  held : s.buf.readRange 0 s.count.toNat = some q
  length : s.count.toNat + missing = s.expectedLen.toNat
  fits : s.expectedLen.toNat ≤ s.cfg.maxFrameLen

/-- Accumulation starts with no byte held and the whole length missing (R105). -/
theorem startAccum_accumulating {s : State} {len : Half} {n : Nat} (h1 : s.now < s.deadline) (h2 : len.toNat = n)
    (h3 : n ≤ s.cfg.maxFrameLen) : (s.startAccum len).Accumulating [] n where
  accum := rfl
  inTime := h1
  held := rfl
  length := (Nat.zero_add n).trans h2.symm
  fits := h2.trans_le h3

/-- A byte in time in ACCUM is a PAYLOAD byte. -/
theorem rxByte_accumulating {s : State} {q : List Byte} {m : Nat} (b : Byte) (h : s.Accumulating q m) :
    rxByte b s = exec (.payload b) s := by
  rw [rxByte_inTime b h.inTime, h.accum]
  rfl

/-- A payload byte that is not the last is stored, and one byte fewer is missing (R106). -/
theorem execPayload_mid_accumulating {s : State} {q : List Byte} {m : Nat} (b : Byte) (h : s.Accumulating q (m + 2)) :
    exec (.payload b) s = .next (s.stored b) ∧ (s.stored b).Accumulating (q ++ [b]) (m + 1) := by
  obtain ⟨hst, hnow, hheld, hlen, hfit⟩ := h
  have hc : (s.count + 1).toNat = s.count.toNat + 1 := count_succ_toNat (e := s.expectedLen) (by omega)
  have hne : s.count + 1 ≠ s.expectedLen := fun he => by rw [he] at hc; omega
  have hheld' : (s.stored b).buf.readRange 0 (s.count.toNat + 1) = some (q ++ [b]) :=
    Memory.readRange_snoc (by simpa using (Memory.readRange_write_of_ge b (by omega)).trans hheld) (by simp)
  refine ⟨execPayload_mid (by omega) hne, hst, hnow, ?_, ?_, hfit⟩
  · rw [stored_count, hc]; exact hheld'
  · rw [stored_count, hc, stored_expectedLen]; omega

/-- Completion does not depend on what `buf` still holds: with the last byte stored and counted it is completion at the
full count. -/
theorem completeFrame_stored {s : State} (b : Byte) (p : List Byte) (h : s.count.toNat + 1 = s.expectedLen.toNat) :
    (s.stored b).completeFrame p = { s with count := s.expectedLen }.completeFrame p := by
  have hc : (s.count + 1).toNat = s.count.toNat + 1 := count_succ_toNat (e := s.expectedLen) (by omega)
  have he : s.count + 1 = s.expectedLen := BitVec.eq_of_toNat_eq (by omega)
  rw [completeFrame_eq, completeFrame_eq, stored_count, he]
  rfl

/-- The last payload byte hands the stored bytes and itself to completion, at the full count (R107). -/
theorem execPayload_last_eq_completeFrame {s : State} {q : List Byte} (b : Byte)
    (h1 : s.buf.readRange 0 s.count.toNat = some q) (h2 : s.count.toNat + 1 = s.expectedLen.toNat)
    (h3 : s.expectedLen.toNat ≤ s.cfg.maxFrameLen) :
    exec (.payload b) s = .next ({ s with count := s.expectedLen }.completeFrame (q ++ [b])) := by
  rw [execPayload_last (by omega) h2 h1, completeFrame_stored b _ h2]

/-- The missing bytes of a payload, received together in time, complete the frame with the bytes held and themselves. -/
theorem rxBytes_accumulating {s : State} {q : List Byte} (b : Byte) (bs : List Byte)
    (h : s.Accumulating q (bs.length + 1)) :
    rxBytes (b :: bs) s = .next ({ s with count := s.expectedLen }.completeFrame (q ++ b :: bs)) := by
  induction bs generalizing s q b with
  | nil =>
    have hlast := execPayload_last_eq_completeFrame b h.held h.length h.fits
    simp only [rxBytes, rxByte_accumulating b h, hlast, andThen_next]
  | cons c bs ih =>
    obtain ⟨hexec, hnext⟩ := execPayload_mid_accumulating b h
    calc rxBytes (b :: c :: bs) s
        = andThen (rxByte b s) (rxBytes (c :: bs)) := rfl
      _ = rxBytes (c :: bs) (s.stored b) := by rw [rxByte_accumulating b h, hexec, andThen_next]
      _ = .next ({ s.stored b with count := s.expectedLen }.completeFrame (q ++ [b] ++ c :: bs)) := ih c hnext
      _ = _ := by rw [completeFrame_eq, completeFrame_eq, List.append_assoc]; rfl

/-! ## A whole frame -/

/-- The state in which an accepted frame that arrives in IDLE completes: `len_hi` and `deadline` are its header's, and
`expected_len` and `count` are its length, unless it is empty, when neither is written (R103). -/
def State.atCompletion (s : State) (p : List Byte) : State :=
  match p with
  | [] => s.heldHeader (lenHiOf 0)
  | _ :: _ =>
    { s.heldHeader (lenHiOf p.length) with
      expectedLen := BitVec.ofNat 16 p.length, count := BitVec.ofNat 16 p.length, st := .accum }

/-- The state after an accepted frame that arrives in IDLE. -/
def State.afterFrame (s : State) (p : List Byte) : State := (s.atCompletion p).completeFrame p

/-- The bytes of an accepted frame, received together in IDLE, complete it with its payload (R112). -/
theorem rxBytes_encodeFrame {s : State} {p : List Byte} (hv : s.cfg.Valid) (hst : s.st = .idle)
    (hp : p.length ≤ s.cfg.maxFrameLen) : rxBytes (encodeFrame p) s = .next (s.afterFrame p) := by
  obtain ⟨-, hmax, hT⟩ := hv
  rw [encodeFrame, rxBytes_header _ _ _ hst hT]
  cases p with
  | nil =>
    have hzero : (lengthOf (lenHiOf 0) (lenLoOf 0)).toNat = 0 := lengthOf_split (Nat.zero_le _)
    have hdone : exec (.hdrLo (lenLoOf 0)) (s.heldHeader (lenHiOf 0)) = .next (s.afterFrame []) := execHdrLo_zero hzero
    exact congrArg (andThen · (rxBytes [])) hdone
  | cons b bs =>
    have hlen : (b :: bs).length ≤ 65535 := hp.trans hmax
    have hstart := execHdrLo_lenLoOf (s := s) (n := (b :: bs).length) (Nat.succ_pos _) hp hlen
    have hacc := startAccum_accumulating (s := s.heldHeader (lenHiOf (b :: bs).length))
      (Nat.lt_add_of_pos_right hT) (toNat_ofNat_length hlen) hp
    rw [hstart, andThen_next, rxBytes_accumulating b bs hacc]
    rfl

/-- The frame's bytes read neither the pending events nor the clock input after the one sample. -/
theorem afterFrame_setInput (s : State) (p : List Byte) (es : List Event) :
    { s.afterFrame p with input := es, now := s.now } = ({ s with input := es } : State).afterFrame p := by
  cases p <;> rw [State.afterFrame, State.afterFrame, completeFrame_eq, completeFrame_eq] <;> rfl

/-- The events after the frame stay pending. -/
@[simp] theorem afterFrame_input (s : State) (p : List Byte) : (s.afterFrame p).input = s.input := by
  cases p <;> exact completeFrame_input _ _

/-- The bytes after a frame are received in the state the frame leaves (R111). -/
theorem rxBytes_encodeFrame_append {s : State} {p : List Byte} (rest : List Byte) (hv : s.cfg.Valid) (hst : s.st = .idle)
    (hp : p.length ≤ s.cfg.maxFrameLen) : rxBytes (encodeFrame p ++ rest) s = rxBytes rest (s.afterFrame p) := by
  rw [rxBytes_append, rxBytes_encodeFrame hv hst hp, andThen_next]

/-- A step on the chunk of an accepted frame, in IDLE, is the completion of the frame. -/
theorem step_chunk_encodeFrame {s : State} {p : List Byte} {n : Nat} {es : List Event}
    (hin : s.input = .chunk (encodeFrame p) n :: es) (hv : s.cfg.Valid) (hst : s.st = .idle)
    (hp : p.length ≤ s.cfg.maxFrameLen) :
    step s = .next (({ s with input := es, now := n } : State).afterFrame p) :=
  (step_chunk hin (List.cons_ne_nil _ _)).trans (rxBytes_encodeFrame hv hst hp)

/-- A chunk of the same time that is pending behind a frame is received in the state the frame leaves. -/
theorem step_afterFrame_chunk {s : State} (p : List Byte) {rest : List Byte} {es : List Event}
    (hin : s.input = .chunk rest s.now :: es) (hrest : rest ≠ []) :
    step (s.afterFrame p) = rxBytes rest (({ s with input := es } : State).afterFrame p) := by
  rw [step_chunk ((afterFrame_input s p).trans hin) hrest, afterFrame_setInput]

end Sys2Proof.Machine

namespace Sys2Proof.Proofs

open Sys2Proof.Machine

/-- Settles O45: both readings complete the frame first, and all that differs between the two completed states is the pending
chunk of `rest`, which the second step takes. -/
theorem surplusBytesStartTheNextFrame : Obligations.SurplusBytesStartTheNextFrame := by
  intro p rest n es s hinv hst hp hrest
  refine ⟨⟨_, step_chunk_encodeFrame rfl hinv.valid hst hp, completeFrame_st _ _⟩, ?_⟩
  have hframe : step { s with input := .chunk (encodeFrame p) n :: .chunk rest n :: es } =
      .next (({ s with input := .chunk rest n :: es, now := n } : State).afterFrame p) :=
    step_chunk_encodeFrame rfl hinv.valid hst hp
  calc step { s with input := .chunk (encodeFrame p ++ rest) n :: es }
      = rxBytes (encodeFrame p ++ rest) { s with input := es, now := n } := step_chunk rfl (List.cons_ne_nil _ _)
    _ = rxBytes rest (({ s with input := es, now := n } : State).afterFrame p) :=
      rxBytes_encodeFrame_append rest hinv.valid hst hp
    _ = step (({ s with input := .chunk rest n :: es, now := n } : State).afterFrame p) :=
      (step_afterFrame_chunk (s := { s with input := .chunk rest n :: es, now := n }) p rfl hrest).symm
    _ = runFor 1 (({ s with input := .chunk rest n :: es, now := n } : State).afterFrame p) := (andThen_pure _).symm
    _ = runFor 2 { s with input := .chunk (encodeFrame p) n :: .chunk rest n :: es } := by
      rw [runFor_succ 1, hframe, andThen_next]

/-- Settles O2: the assembled length is in range, so HDR_LO takes its last branch. -/
theorem hdrLoStartsAccumulation : Obligations.HdrLoStartsAccumulation := by
  intro b s hpos hmax
  rw [← lengthOf_toNat] at hpos hmax
  rw [execHdrLo_start hpos hmax, ofNat_header_eq_lengthOf]
  rfl

/-- Settles O6: the stored bytes and the last one go to completion, and the dispatcher answers exactly `08 01`. -/
theorem lastPayloadByteCompletesTheFrame : Obligations.LastPayloadByteCompletesTheFrame := by
  intro b p s hlen hread hcount hmax
  have hheld : s.buf.readRange 0 s.count.toNat = some p :=
    Memory.readRange_eq_some.2 ⟨hlen, fun i hi => by rw [Nat.zero_add]; exact hread i (hlen ▸ hi)⟩
  refine ⟨_, execPayload_last_eq_completeFrame b hheld hcount hmax, ?_⟩
  rw [completeFrame_eq, responseTo_eq_ite, completionEntries_eq_ite]
  rfl

/-- Settles O3: the length is zero, so HDR_LO completes the empty payload, which the dispatcher drops. -/
theorem zeroLengthFrameCompletesAtOnce : Obligations.ZeroLengthFrameCompletesAtOnce := by
  intro b s hzero
  rw [← lengthOf_toNat] at hzero
  have hdrop : ([] : List Byte) ≠ pingPayload := by decide
  refine ⟨_, execHdrLo_zero hzero, ?_, fun hbuf => by rw [completeFrame_buf, hbuf]⟩
  rw [completeFrame_eq, responseTo_of_ne _ hdrop, completionEntries_of_ne _ hdrop, List.append_nil]

end Sys2Proof.Proofs
end

section
/-! PROOFS of the reassembly buffer (spec/41_reassembly_buffer.md): the payload that APPEND has left in `buf`, and the
statement settled from it. -/

namespace Sys2Proof.Machine

/-- A byte written right after a stored range extends the range by that byte (R131, R132). -/
theorem Memory.readRange_write_snoc {m : Memory} {a n : Nat} {p : List Byte} (b : Byte) (h : m.readRange a n = some p) :
    (m.write (a + n) b).readRange a (n + 1) = some (p ++ [b]) :=
  Memory.readRange_snoc ((Memory.readRange_write_of_ge b (Nat.le_refl _)).trans h) (Memory.read_write_same m _ b)

/-- With the last byte written at `storeIndex`, `buf` reads as the bytes held and that byte, from index 0 on. -/
theorem readRange_write_storeIndex_of_last {s : State} {p : List Byte} (b : Byte)
    (hheld : s.buf.readRange 0 s.count.toNat = some p) (hlast : s.count.toNat + 1 = s.expectedLen.toNat) :
    (s.buf.write (storeIndex s) b).readRange 0 s.expectedLen.toNat = some (p ++ [b]) := by
  have hwhole : (s.buf.write (0 + s.count.toNat) b).readRange 0 (s.count.toNat + 1) = some (p ++ [b]) :=
    Memory.readRange_write_snoc b hheld
  rwa [Nat.zero_add, hlast] at hwhole

end Sys2Proof.Machine

namespace Sys2Proof.Proofs

open Sys2Proof.Machine

/-- Settles O5: APPEND is one write of `buf` at `storeIndex`. A byte that is not the last leaves the stored and counted state;
the last one goes to completion behind the bytes held, which together are what `buf` then reads. -/
theorem payloadByteIsAppendedAtCount : Obligations.PayloadByteIsAppendedAtCount := by
  intro b s hcount hmax hstored
  have hfit : s.count.toNat < s.cfg.maxFrameLen := Nat.lt_of_lt_of_le hcount hmax
  have hsucc : (s.count + 1).toNat = s.count.toNat + 1 := count_succ_toNat hcount
  have hread : (s.buf.write (storeIndex s) b).read (storeIndex s) = some b := Memory.read_write_same _ _ _
  have hother (a : Nat) (ha : a ≠ storeIndex s) : (s.buf.write (storeIndex s) b).read a = s.buf.read a :=
    Memory.read_write_ne _ _ ha
  rcases Nat.lt_or_eq_of_le (Nat.succ_le_of_lt hcount) with hmid | hlast
  · have hne : s.count + 1 ≠ s.expectedLen := fun he => Nat.ne_of_lt hmid (by rw [← he, hsucc])
    exact ⟨_, s.stored b, append_of_lt b hfit, rfl, hread, hother, execPayload_mid hfit hne, hsucc, fun _ => rfl,
      fun h => absurd h (Nat.ne_of_lt hmid)⟩
  · obtain ⟨p, hheld⟩ : ∃ p, s.buf.readRange 0 s.count.toNat = some p :=
      Memory.readRange_isSome fun i hi => hstored (0 + i) (by rwa [Nat.zero_add])
    have hdone : ((s.stored b).completeFrame (p ++ [b])).count.toNat = s.count.toNat + 1 := by
      rw [completeFrame_count, stored_count, hsucc]
    exact ⟨_, (s.stored b).completeFrame (p ++ [b]), append_of_lt b hfit, rfl, hread, hother,
      execPayload_last hfit hlast hheld, hdone, fun h => absurd hlast (Nat.ne_of_lt h),
      fun _ => ⟨p ++ [b], readRange_write_storeIndex_of_last b hheld hlast, completeFrame_ghost _ _⟩⟩

end Sys2Proof.Proofs
end

section
/-! PROOFS of the frame dispatcher (spec/42_frame_dispatcher.md): the dispatcher's graph, completion of a recognised and of an
unrecognised payload, and the statements settled from them. -/

namespace Sys2Proof.Machine

/-- All the dispatcher can answer: the revision's response, to the request of the one table entry (R150). -/
theorem dispatch_eq_some_iff {c : Config} {p q : List Byte} :
    dispatch c p = some q ↔ p = pingPayload ∧ q = pongPayload c.protocolRev := by
  constructor
  · intro h
    by_cases hp : p = pingPayload
    · rw [hp, dispatch_ping] at h
      exact ⟨hp, (Option.some.inj h).symm⟩
    · rw [dispatch_of_ne c hp] at h
      contradiction
  · rintro ⟨rfl, rfl⟩
    exact dispatch_ping c

/-- The response payload, revision by revision (R151, R152). -/
theorem eq_pongPayload_iff {r : ProtocolRev} {q : List Byte} :
    q = pongPayload r ↔ (r = .v1 ∧ q = [0x08, 0x02]) ∨ (r = .v2 ∧ q = [0x08, 0x02, 0x10, 0x01]) := by
  cases r with
  | v1 => simp [pongPayload]
  | v2 => simp [pongPayload]

/-- Completion of the PING emits the revision's PONG and logs the completion alone (R151, R152). -/
theorem completeFrame_ping (s : State) :
    s.completeFrame pingPayload =
      { s with
        st := .idle
        buf := []
        tx := s.tx ++ pongFrame s.cfg.protocolRev
        ghost := s.ghost ++ [.complete pingPayload] } := by
  rw [completeFrame_eq, responseTo_ping, completionEntries_ping]

/-- Completion of any other payload emits nothing and logs its drop (R153). -/
theorem completeFrame_of_ne (s : State) {p : List Byte} (h : p ≠ pingPayload) :
    s.completeFrame p = { s with st := .idle, buf := [], ghost := s.ghost ++ [.complete p, .unknown] } := by
  rw [completeFrame_eq, responseTo_of_ne _ h, completionEntries_of_ne _ h, List.append_nil]

end Sys2Proof.Machine

namespace Sys2Proof.Proofs

open Sys2Proof.Machine

/-- Settles O11: the dispatcher answers the PING alone, and its answer is the revision's PONG payload. -/
theorem dispatcherRecognisesExactlyThePing : Obligations.DispatcherRecognisesExactlyThePing := by
  intro c p q
  rw [dispatch_eq_some_iff, eq_pongPayload_iff]
  rfl

/-- Settles O7: PING is completion of `08 01`, whose PONG frame is then read off revision by revision. -/
theorem pingIsAnsweredWithThePongOfItsRevision : Obligations.PingIsAnsweredWithThePongOfItsRevision := by
  intro s
  have hexec : exec .ping s = .next (s.completeFrame pingPayload) := rfl
  refine ⟨_, hexec, fun hrev => ?_, fun hrev => ?_⟩
  · rw [completeFrame_ping, hrev]; rfl
  · rw [completeFrame_ping, hrev]; rfl

/-- Settles O8: UNKNOWN and EMPTY are completion of a payload that is not the PING's, the empty payload among them. -/
theorem unrecognisedFramesAreDropped : Obligations.UnrecognisedFramesAreDropped := by
  refine ⟨fun p s hp => ?_, fun s => ?_⟩
  · have hexec : exec (.unknown p) s = .next (s.completeFrame p) := rfl
    exact ⟨_, hexec, by rw [completeFrame_of_ne s hp]⟩
  · have hexec : exec .empty s = .next (s.completeFrame []) := rfl
    have hdrop : ([] : List Byte) ≠ pingPayload := by decide
    exact ⟨_, hexec, by rw [completeFrame_of_ne s hdrop]⟩

end Sys2Proof.Proofs
end

section
/-! PROOFS of the recovery policy (spec/44_recovery_policy.md): a step on a TICK, and the statement settled from it. -/

namespace Sys2Proof.Machine

/-- A step on a TICK is the deadline check at the TICK's time (R189). -/
theorem step_tick {s : State} {n : Nat} {es : List Event} (h : s.input = .tick n :: es) :
    step s = .next ({ s with input := es, now := n } : State).checkDeadline := step_cons h

/-- All a discard writes: `st` and the log; the bytes of `buf` are absent from then on (R225). -/
theorem discard_eq (s : State) (c : Cause) :
    s.discard c = { s with st := .idle, buf := [], ghost := s.ghost ++ [.discard c] } := rfl

end Sys2Proof.Machine

namespace Sys2Proof.Proofs

open Sys2Proof.Machine

/-- Settles O19: the step is the deadline check at `n`, which discards when the deadline is reached and does nothing in IDLE or
earlier. -/
theorem tickOnlyChecksTheDeadline : Obligations.TickOnlyChecksTheDeadline := by
  intro n es s hin
  rw [step_tick hin]
  refine ⟨fun harmed hreached => ?_, fun hquiet => ?_⟩
  · rw [checkDeadline_of_expired (s := { s with input := es, now := n }) harmed hreached]
    exact ⟨_, rfl, by rw [discard_eq]⟩
  · rcases hquiet with hidle | hearly
    · rw [checkDeadline_of_idle (s := { s with input := es, now := n }) hidle]
    · rw [checkDeadline_of_lt (s := { s with input := es, now := n }) hearly]

end Sys2Proof.Proofs
end

section
/-! PROOFS of the engine's operations (spec/45_engine_operations.md). A frame in any pieces is followed byte by byte, by a
predicate on what of it is still missing; a frame behind a partial send is received as in IDLE, once the deadline has passed.
The document's scenarios are read off these two. A lemma about a run through some events names a state from which the later
events are run: that state carries them as pending, so a run of all events is not the run of the first ones and then another. -/

namespace Sys2Proof.Machine

/-! ## TICKs -/

/-- A run through TICKs writes nothing but `st`, and that only to IDLE (44_recovery_policy.md R189). -/
theorem runAll_ticks {ticks : List Event} (hticks : ∀ e ∈ ticks, e.isTick = true) (later : List Event) (s : State) :
    ∃ t, runAll (ticks ++ later) s = runAll later t ∧ t.cfg = s.cfg ∧ t.tx = s.tx ∧ t.deadline = s.deadline ∧
      (t.st = s.st ∨ t.st = .idle) := by
  induction ticks generalizing s with
  | nil => exact ⟨s, rfl, rfl, rfl, rfl, .inl rfl⟩
  | cons e ticks ih =>
    obtain ⟨htick, hrest⟩ := List.forall_mem_cons.1 hticks
    cases e with
    | tick n =>
      let u : State := { s with input := ticks ++ later, now := n }
      obtain ⟨t, hrun, hcfg, htx, hdl, hst⟩ := ih hrest u.checkDeadline
      refine ⟨t, (runAll_cons _ _ s).trans hrun, by simpa using hcfg, by simpa using htx, by simpa using hdl, ?_⟩
      rcases hst with hst | hst
      · rw [hst]; exact checkDeadline_st u
      · exact .inr hst
    | _ => cases htick

/-! ## A frame in any pieces -/

/-- From `s₀` to `s` the block has put out `out` and logged `log`, under the same parameters. -/
structure State.Extends (s₀ s : State) (out : List Byte) (log : List TraceEntry) : Prop where
  cfg : s.cfg = s₀.cfg
  tx : s.tx = s₀.tx ++ out
  ghost : s.ghost = s₀.ghost ++ log

/-- Completion puts out the response and logs the completion (40_serial_frame_decoder.md R108). -/
theorem State.Extends.completeFrame {s₀ s : State} (p : List Byte) (h : s₀.Extends s [] []) :
    s₀.Extends (s.completeFrame p) (responseTo s₀.cfg p) (completionEntries s₀.cfg p) := by
  obtain ⟨hcfg, htx, hghost⟩ := h
  constructor <;> simp [hcfg, htx, hghost]

/-- What of the frame with payload `p` the state `s` waits for, when the frame's first byte was due in IDLE in `s₀` and comes
no earlier than `t0`: a frame in flight was armed at `t0` or later, so its deadline is not before `t0 + T_REASM`. -/
inductive State.Awaits (s₀ : State) (t0 : Nat) (p : List Byte) (s : State) : List Byte → Prop where
  | start : s.st = .idle → s₀.Extends s [] [] → Awaits s₀ t0 p s (lenHiOf p.length :: lenLoOf p.length :: p)
  | header : s.st = .hdr → s.lenHi = lenHiOf p.length → t0 + s₀.cfg.tReasm ≤ s.deadline → s₀.Extends s [] [] →
      Awaits s₀ t0 p s (lenLoOf p.length :: p)
  | payload {q r : List Byte} : q ++ r = p → s.Accumulating q r.length → r ≠ [] → t0 + s₀.cfg.tReasm ≤ s.deadline →
      s₀.Extends s [] [] → Awaits s₀ t0 p s r
  | done : s.st = .idle → s₀.Extends s (responseTo s₀.cfg p) (completionEntries s₀.cfg p) → Awaits s₀ t0 p s []

section
variable {s₀ s : State} {t0 : Nat} {p r : List Byte}

/-- An IDLE state waits for the whole of any frame. -/
theorem awaits_encodeFrame (hst : s.st = .idle) : s.Awaits t0 p s (encodeFrame p) :=
  .start hst ⟨rfl, (List.append_nil _).symm, (List.append_nil _).symm⟩

/-- A state that waits for no more bytes has completed the frame, and is in IDLE. -/
theorem State.Awaits.completed (h : s₀.Awaits t0 p s []) :
    s.st = .idle ∧ s₀.Extends s (responseTo s₀.cfg p) (completionEntries s₀.cfg p) := by
  cases h with
  | payload _ _ hne => exact absurd rfl hne
  | done hst hout => exact ⟨hst, hout⟩

/-- A state that waits for bytes of a frame is in IDLE, or its deadline is not before `t0 + T_REASM`. -/
theorem State.Awaits.idle_or_ahead (h : s₀.Awaits t0 p s r) : s.st = .idle ∨ t0 + s₀.cfg.tReasm ≤ s.deadline := by
  cases h with
  | start hst | done hst => exact .inl hst
  | header _ _ hdl | payload _ _ _ hdl => exact .inr hdl

/-- Neither the pending events nor a clock reading in time changes what is missing. -/
theorem State.Awaits.setEvent {n : Nat} (es : List Event) (h : s₀.Awaits t0 p s r) (hn : n < t0 + s₀.cfg.tReasm) :
    s₀.Awaits t0 p { s with input := es, now := n } r := by
  cases h with
  | start hst hout => exact .start hst ⟨hout.cfg, hout.tx, hout.ghost⟩
  | header hst hhi hdl hout => exact .header hst hhi hdl ⟨hout.cfg, hout.tx, hout.ghost⟩
  | payload hp hacc hne hdl hout =>
    obtain ⟨hst, -, hheld, hlen, hfit⟩ := hacc
    exact .payload hp ⟨hst, hn.trans_le hdl, hheld, hlen, hfit⟩ hne hdl ⟨hout.cfg, hout.tx, hout.ghost⟩
  | done hst hout => exact .done hst ⟨hout.cfg, hout.tx, hout.ghost⟩

/-- The second length byte of a frame completes it when it is empty, and starts accumulation otherwise (R102). -/
theorem State.Awaits.hdrLo (hv : s₀.cfg.Valid) (hp : p.length ≤ s₀.cfg.maxFrameLen) (hhi : s.lenHi = lenHiOf p.length)
    (hnow : s.now < s.deadline) (hdl : t0 + s₀.cfg.tReasm ≤ s.deadline) (hout : s₀.Extends s [] []) :
    ∃ t, exec (.hdrLo (lenLoOf p.length)) s = .next t ∧ s₀.Awaits t0 p t p := by
  obtain ⟨-, hmax, -⟩ := hv
  have hlen : (lengthOf s.lenHi (lenLoOf p.length)).toNat = p.length := by rw [hhi]; exact lengthOf_split (hp.trans hmax)
  have hfit : p.length ≤ s.cfg.maxFrameLen := by rw [hout.cfg]; exact hp
  cases p with
  | nil => exact ⟨_, execHdrLo_zero hlen, .done (completeFrame_st _ _) (hout.completeFrame [])⟩
  | cons b bs =>
    exact ⟨_, execHdrLo_start (hlen.symm ▸ Nat.succ_pos _) (hlen.trans_le hfit),
      .payload (List.nil_append _) (startAccum_accumulating hnow hlen hfit) (List.cons_ne_nil _ _) hdl
        ⟨hout.cfg, hout.tx, hout.ghost⟩⟩

/-- A payload byte in time completes the frame when it is the last missing one, and is stored otherwise (R106, R107). -/
theorem State.Awaits.payloadByte {q : List Byte} {b : Byte} (hp : q ++ b :: r = p) (hacc : s.Accumulating q (r.length + 1))
    (hdl : t0 + s₀.cfg.tReasm ≤ s.deadline) (hout : s₀.Extends s [] []) :
    ∃ t, exec (.payload b) s = .next t ∧ s₀.Awaits t0 p t r := by
  cases r with
  | nil =>
    subst hp
    have hfull : s₀.Extends { s with count := s.expectedLen } [] [] := ⟨hout.cfg, hout.tx, hout.ghost⟩
    exact ⟨_, execPayload_last_eq_completeFrame b hacc.held hacc.length hacc.fits,
      .done (completeFrame_st _ _) (hfull.completeFrame _)⟩
  | cons c r =>
    obtain ⟨hexec, hnext⟩ := execPayload_mid_accumulating b hacc
    exact ⟨_, hexec, .payload (by simpa using hp) hnext (List.cons_ne_nil _ _) hdl ⟨hout.cfg, hout.tx, hout.ghost⟩⟩

/-- The next byte of the frame, in time, is received as such: the first one arms the deadline, the others are ahead of it. -/
theorem State.Awaits.rxByte {b : Byte} (hv : s₀.cfg.Valid) (hp : p.length ≤ s₀.cfg.maxFrameLen)
    (h : s₀.Awaits t0 p s (b :: r)) (hlo : t0 ≤ s.now) (hhi : s.now < t0 + s₀.cfg.tReasm) :
    ∃ t, rxByte b s = .next t ∧ s₀.Awaits t0 p t r := by
  cases h with
  | start hst hout =>
    refine ⟨_, rxByte_idle _ hst, .header rfl rfl ?_ ⟨hout.cfg, hout.tx, hout.ghost⟩⟩
    show t0 + s₀.cfg.tReasm ≤ s.now + s.cfg.tReasm
    rw [hout.cfg]
    exact Nat.add_le_add_right hlo _
  | header hst hlen hdl hout =>
    have hnow : s.now < s.deadline := hhi.trans_le hdl
    rw [rxByte_inTime _ hnow, hst]
    exact Awaits.hdrLo hv hp hlen hnow hdl hout
  | payload hq hacc _ hdl hout =>
    rw [rxByte_accumulating b hacc]
    exact Awaits.payloadByte hq hacc hdl hout

/-- The next bytes of the frame, together and in time, leave the bytes behind them missing. -/
theorem State.Awaits.rxBytes {bs : List Byte} (hv : s₀.cfg.Valid) (hp : p.length ≤ s₀.cfg.maxFrameLen)
    (h : s₀.Awaits t0 p s (bs ++ r)) (hlo : t0 ≤ s.now) (hhi : s.now < t0 + s₀.cfg.tReasm) :
    ∃ t, rxBytes bs s = .next t ∧ s₀.Awaits t0 p t r := by
  induction bs generalizing s with
  | nil => exact ⟨s, rfl, h⟩
  | cons b bs ih =>
    obtain ⟨u, hbyte, hu⟩ := h.rxByte hv hp hlo hhi
    obtain ⟨-, hnow, -⟩ := rxByte_environment hbyte
    obtain ⟨t, hbytes, ht⟩ := ih hu (hnow ▸ hlo) (hnow ▸ hhi)
    exact ⟨t, andThen_eq_next.2 ⟨u, hbyte, hbytes⟩, ht⟩

end

/-- An event at a time before the deadline is the reception of its bytes, if any, at its time (45_engine_operations.md R202 to
R204). -/
theorem runEvent_eq_rxBytes {e : Event} {s : State} {lo hi : Nat} (he : e.within lo hi = true)
    (hs : s.st = .idle ∨ hi ≤ s.deadline) :
    ∃ n, lo ≤ n ∧ n < hi ∧ runEvent e s = rxBytes e.bytes (s.sample n) := by
  have hquiet {n : Nat} (hn : n < hi) : (s.sample n).checkDeadline = s.sample n := by
    rcases hs with hidle | hahead
    · exact checkDeadline_of_idle hidle
    · exact checkDeadline_of_lt (hn.trans_le hahead)
  cases e with
  | reset => cases he
  | rx b n =>
    obtain ⟨hlo, hhi⟩ : lo ≤ n ∧ n < hi := by simpa [Event.within] using he
    exact ⟨n, hlo, hhi, (andThen_pure _).symm⟩
  | chunk bs n =>
    obtain ⟨hlo, hhi⟩ : lo ≤ n ∧ n < hi := by simpa [Event.within] using he
    refine ⟨n, hlo, hhi, ?_⟩
    cases bs with
    | nil => exact congrArg Host.Outcome.next (hquiet hhi)
    | cons b bs => rfl
  | tick n =>
    obtain ⟨hlo, hhi⟩ : lo ≤ n ∧ n < hi := by simpa [Event.within] using he
    exact ⟨n, hlo, hhi, congrArg Host.Outcome.next (hquiet hhi)⟩

/-- Events in time that bring the next bytes of the frame, cut up in any way, leave the bytes behind them missing (R207). -/
theorem runAll_awaits {s₀ s : State} {t0 : Nat} {p more : List Byte} {evs : List Event} (later : List Event)
    (hv : s₀.cfg.Valid) (hp : p.length ≤ s₀.cfg.maxFrameLen)
    (hevs : ∀ e ∈ evs, e.within t0 (t0 + s₀.cfg.tReasm) = true) (h : s₀.Awaits t0 p s (bytesOf evs ++ more)) :
    ∃ t, runAll (evs ++ later) s = runAll later t ∧ s₀.Awaits t0 p t more := by
  induction evs generalizing s with
  | nil => exact ⟨s, rfl, h⟩
  | cons e evs ih =>
    obtain ⟨he, hevs⟩ := List.forall_mem_cons.1 hevs
    have hbytes : s₀.Awaits t0 p s (e.bytes ++ (bytesOf evs ++ more)) := by
      simpa [bytesOf, List.flatMap_cons] using h
    obtain ⟨n, hlo, hhi, hevent⟩ := runEvent_eq_rxBytes (s := { s with input := evs ++ later }) he h.idle_or_ahead
    obtain ⟨u, hrx, hu⟩ := (hbytes.setEvent (evs ++ later) hhi).rxBytes hv hp hlo hhi
    obtain ⟨t, hrun, ht⟩ := ih hevs hu
    refine ⟨t, ?_, ht⟩
    calc runAll (e :: (evs ++ later)) s
        = andThen (runEvent e { s with input := evs ++ later }) (runAll (evs ++ later)) := runAll_cons _ _ s
      _ = runAll (evs ++ later) u := by rw [hevent]; exact congrArg (andThen · _) hrx
      _ = runAll later t := hrun

/-- An accepted frame that comes in IDLE in any pieces, all in time, completes with its payload (R207). -/
theorem runAll_encodeFrame {s : State} {t0 : Nat} {p : List Byte} {evs : List Event} (later : List Event)
    (hv : s.cfg.Valid) (hst : s.st = .idle) (hp : p.length ≤ s.cfg.maxFrameLen)
    (hevs : ∀ e ∈ evs, e.within t0 (t0 + s.cfg.tReasm) = true) (hbytes : encodeFrame p = bytesOf evs) :
    ∃ t, runAll (evs ++ later) s = runAll later t ∧ t.st = .idle ∧
      s.Extends t (responseTo s.cfg p) (completionEntries s.cfg p) := by
  have hwait : s.Awaits t0 p s (bytesOf evs ++ []) := by
    rw [List.append_nil, ← hbytes]; exact awaits_encodeFrame hst
  obtain ⟨t, hrun, ht⟩ := runAll_awaits later hv hp hevs hwait
  exact ⟨t, hrun, ht.completed⟩

/-! ## A partial send and the frame after it -/

/-- The state that the two length bytes of a frame of `len` bytes, together at `n` in IDLE, lead to (R105). -/
def State.afterHeader (s : State) (n len : Nat) : State :=
  (({ s with now := n } : State).heldHeader (lenHiOf len)).startAccum (BitVec.ofNat 16 len)

/-- A chunk of the two length bytes of an accepted frame that is not empty starts accumulation (R105). -/
theorem runAll_chunk_header {s : State} {len : Nat} (n : Nat) (later : List Event) (hv : s.cfg.Valid) (hst : s.st = .idle)
    (hpos : 1 ≤ len) (hmax : len ≤ s.cfg.maxFrameLen) :
    runAll (.chunk [lenHiOf len, lenLoOf len] n :: later) s = runAll later (s.afterHeader n len) := by
  obtain ⟨-, hword, hT⟩ := hv
  let u : State := { s with input := later, now := n }
  have hheader : runEvent (.chunk [lenHiOf len, lenLoOf len] n) { s with input := later } =
      .next ((u.heldHeader (lenHiOf len)).startAccum (BitVec.ofNat 16 len)) := by
    refine (rxBytes_header (s := u) _ _ [] hst hT).trans ?_
    rw [execHdrLo_lenLoOf (s := u) hpos hmax (hmax.trans hword)]
    rfl
  rw [runAll_cons, hheader]
  rfl

/-- The check does nothing more after the check. -/
theorem checkDeadline_checkDeadline (s : State) : s.checkDeadline.checkDeadline = s.checkDeadline := by
  rcases checkDeadline_cases s with ⟨h, -⟩ | ⟨h, -, -⟩
  · rw [h, h]
  · rw [h]; exact checkDeadline_of_idle rfl

/-- A chunk is received as in the state after the check at its time (R202). -/
theorem rxBytes_checkDeadline (b : Byte) (bs : List Byte) (s : State) :
    rxBytes (b :: bs) s.checkDeadline = rxBytes (b :: bs) s := by
  have hbyte : rxByte b s.checkDeadline = rxByte b s := by rw [rxByte, checkDeadline_checkDeadline]; rfl
  exact congrArg (andThen · (rxBytes bs)) hbyte

/-- The check leaves the block in IDLE when it is there, or when the deadline has been reached (R187, R188). -/
theorem checkDeadline_st_idle {s : State} (h : s.st = .idle ∨ s.deadline ≤ s.now) : s.checkDeadline.st = .idle := by
  rcases checkDeadline_cases s with ⟨he, hidle | hahead⟩ | ⟨he, -, -⟩
  · rw [he, hidle]
  · rw [he]; exact h.resolve_right (Nat.not_le.2 hahead)
  · rw [he]; rfl

/-- After an accepted frame that arrives in IDLE, `tx` has grown by the response (R108). -/
theorem afterFrame_tx (s : State) (p : List Byte) : (s.afterFrame p).tx = s.tx ++ responseTo s.cfg p := by
  cases p <;> exact completeFrame_tx _ _

/-- A chunk of an accepted frame, in IDLE or at or after the deadline of the frame in flight, completes with its payload
(R209, R211). -/
theorem runAll_chunk_encodeFrame {s : State} {p : List Byte} {n : Nat} (hv : s.cfg.Valid)
    (hfresh : s.st = .idle ∨ s.deadline ≤ n) (hp : p.length ≤ s.cfg.maxFrameLen) :
    ∃ t, runAll [.chunk (encodeFrame p) n] s = .next t ∧ t.tx = s.tx ++ responseTo s.cfg p ∧ t.st = .idle := by
  let u : State := { s with input := [], now := n }
  have hcfg : u.checkDeadline.cfg = s.cfg := checkDeadline_cfg u
  have htx : u.checkDeadline.tx = s.tx := checkDeadline_tx u
  have hframe : rxBytes (encodeFrame p) u = .next (u.checkDeadline.afterFrame p) := by
    rw [encodeFrame, ← rxBytes_checkDeadline]
    exact rxBytes_encodeFrame (hcfg ▸ hv) (checkDeadline_st_idle hfresh) (hcfg ▸ hp)
  refine ⟨{ u.checkDeadline.afterFrame p with input := [] }, ?_, ?_, completeFrame_st _ _⟩
  · rw [runAll_cons]
    exact congrArg (andThen · (runAll [])) hframe
  · rw [afterFrame_tx, hcfg, htx]

/-- The PING is an accepted frame in every legal configuration (00_scope.md R8). -/
theorem pingPayload_fits {c : Config} (hv : c.Valid) : pingPayload.length ≤ c.maxFrameLen := hv.1

/-- The PING's header in IDLE, then TICKs: nothing is put out, and the deadline stays that of the first byte (R213). -/
theorem runAll_ping_header_ticks {s : State} {ticks : List Event} (t0 : Nat) (later : List Event) (hv : s.cfg.Valid)
    (hst : s.st = .idle) (hticks : ∀ e ∈ ticks, e.isTick = true) :
    ∃ t, runAll (.chunk [0x00, 0x02] t0 :: (ticks ++ later)) s = runAll later t ∧ t.cfg = s.cfg ∧ t.tx = s.tx ∧
      t.deadline = t0 + s.cfg.tReasm := by
  obtain ⟨t, hrun, hcfg, htx, hdl, -⟩ := runAll_ticks hticks later (s.afterHeader t0 2)
  exact ⟨t, (runAll_chunk_header t0 _ hv hst (by decide) (pingPayload_fits hv)).trans hrun, hcfg, htx, hdl⟩

end Sys2Proof.Machine

namespace Sys2Proof.Proofs

open Sys2Proof.Machine

/-- Settles O47: the chunk is the PING's frame, whose response is the revision's PONG. -/
theorem scenarioAPingInOneWrite : Obligations.ScenarioAPingInOneWrite := by
  intro n s hinv hst
  rw [← responseTo_ping]
  exact runAll_chunk_encodeFrame (p := pingPayload) hinv.valid (.inl hst) (pingPayload_fits hinv.valid)

/-- Settles O48: the first chunk is the PING's header; both together are the PING's frame in two pieces in time. -/
theorem scenarioBPingInTwoWrites : Obligations.ScenarioBPingInTwoWrites := by
  intro t0 t1 s hinv hst hle hlt
  have hv := hinv.valid
  constructor
  · exact ⟨_, runAll_chunk_header t0 [] hv hst (by decide) (pingPayload_fits hv), rfl, rfl, rfl, rfl⟩
  · have hpieces : ∀ e ∈ [Event.chunk [0x00, 0x02] t0, .chunk [0x08, 0x01] t1],
        e.within t0 (t0 + s.cfg.tReasm) = true := by
      have hT : 0 < s.cfg.tReasm := hv.2.2
      simp [Event.within, hle, hlt, hT]
    obtain ⟨t, hrun, hidle, hout⟩ := runAll_encodeFrame (p := pingPayload) [] hv hst (pingPayload_fits hv) hpieces rfl
    exact ⟨{ t with input := [] }, hrun, by rw [hout.tx, responseTo_ping], hidle⟩

/-- Settles O49: TICKs put nothing out and do not move the deadline of the partial send, so the PING at or after it is received
as in IDLE. -/
theorem scenarioCLossRecovery : Obligations.ScenarioCLossRecovery := by
  intro t0 t2 ticks s hinv hst hticks hlate
  have hv := hinv.valid
  constructor
  · obtain ⟨u, hrun, -, htx, -⟩ := runAll_ping_header_ticks t0 [] hv hst hticks
    rw [List.append_nil] at hrun
    exact ⟨{ u with input := [] }, hrun, htx⟩
  · obtain ⟨u, hrun, hcfg, htx, hdl⟩ :=
      runAll_ping_header_ticks t0 [.chunk [0x00, 0x02, 0x08, 0x01] t2] hv hst hticks
    rw [hrun, ← responseTo_ping, ← hcfg, ← htx]
    rw [← hcfg] at hv
    exact runAll_chunk_encodeFrame (p := pingPayload) hv (.inr (hdl.trans_le hlate)) (pingPayload_fits hv)

/-- Settles O50: the frame completes with its payload, which is not the PING's and so puts nothing out; TICKs in IDLE add
nothing. -/
theorem unknownTagFrameIsNeverAnswered : Obligations.UnknownTagFrameIsNeverAnswered := by
  intro p t0 evs ticks s hinv hst hp hne hbytes hevs hticks
  obtain ⟨u, hframe, hidle, hout⟩ := runAll_encodeFrame ticks hinv.valid hst hp hevs hbytes
  obtain ⟨t, hquiet, -, htx, -, hst'⟩ := runAll_ticks hticks [] u
  rw [List.append_nil] at hquiet
  have hsilent : u.tx = s.tx := by rw [hout.tx, responseTo_of_ne _ hne, List.append_nil]
  exact ⟨{ t with input := [] }, hframe.trans hquiet, htx.trans hsilent, hst'.elim (·.trans hidle) id⟩

end Sys2Proof.Proofs
end

section
/-! PROOFS of the exceptions (spec/60_exceptions.md): the OVERSIZE row as a discard, and the statement settled from it. -/

namespace Sys2Proof.Machine

/-- The OVERSIZE row is the discard alone, whatever the length (R222). -/
theorem exec_oversize (len : Half) (s : State) : exec (.oversize len) s = .next (s.discard .oversize) := rfl

end Sys2Proof.Machine

namespace Sys2Proof.Proofs

open Sys2Proof.Machine

/-- Settles O9: the OVERSIZE row and the check on a reached deadline are both the discard, each with its own cause, and
`discard_eq` says all that a discard writes. -/
theorem discardOnlyReturnsToIdle : Obligations.DiscardOnlyReturnsToIdle := by
  refine ⟨fun len s => ?_, fun s harmed hreached => ?_⟩
  · exact ⟨_, exec_oversize len s, by rw [discard_eq]⟩
  · rw [checkDeadline_of_expired harmed hreached, discard_eq]

end Sys2Proof.Proofs
end

section
/-! PROOFS of the encoding (spec/30_encoding.md, spec/43_serial_frame_encoder.md section 1): a received header and the payload
behind it are the frame that `encodeFrame` writes, and the statements settled from it. -/

namespace Sys2Proof.Machine

/-! ## A frame and its header -/

/-- A length of 16 bits, split into its two header bytes, is read back (30_encoding.md R74). -/
theorem lengthOf_split_half (len : Half) : lengthOf (lenHiOf len.toNat) (lenLoOf len.toNat) = len :=
  BitVec.eq_of_toNat_eq (lengthOf_split (Nat.le_of_lt_succ len.isLt))

/-- Two header bytes and as many bytes behind them as they say are a frame and the bytes after it. -/
theorem encodeFrame_take_append_drop {hi lo : Byte} {rest : List Byte} (h : (lengthOf hi lo).toNat ≤ rest.length) :
    encodeFrame (rest.take (lengthOf hi lo).toNat) ++ rest.drop (lengthOf hi lo).toNat = hi :: lo :: rest := by
  obtain ⟨hhi, hlo⟩ := split_lengthOf hi lo
  rw [encodeFrame, List.length_take_of_le h, hhi, hlo, List.cons_append, List.cons_append, List.take_append_drop]

/-! ## The decoder of received frames, branch by branch (30_encoding.md R77, R79) -/

/-- A header above `MAX_FRAME_LEN` is an OVERSIZE row, whatever follows. -/
theorem decodeReceived_oversize {c : Config} {hi lo : Byte} (rest : List Byte)
    (h : c.maxFrameLen < (lengthOf hi lo).toNat) :
    decodeReceived c (hi :: lo :: rest) = .ok (.oversize (lengthOf hi lo), rest) := if_pos h

section
variable {c : Config} {hi lo : Byte} {rest : List Byte}

/-- A zero header is an EMPTY row, whatever follows. -/
theorem decodeReceived_empty (h : (lengthOf hi lo).toNat = 0) :
    decodeReceived c (hi :: lo :: rest) = .ok (.empty, rest) := by
  simp only [decodeReceived]
  rw [if_neg (by omega), if_pos (half_eq_zero.2 h)]

/-- An accepted header with fewer bytes behind it than it says is no row yet (R80). -/
theorem decodeReceived_short (hfit : (lengthOf hi lo).toNat ≤ c.maxFrameLen)
    (hshort : rest.length < (lengthOf hi lo).toNat) : decodeReceived c (hi :: lo :: rest) = .error .shortPayload := by
  simp only [decodeReceived]
  rw [if_neg (Nat.not_lt.2 hfit), if_neg (mt half_eq_zero.1 (by omega)), if_pos hshort]

/-- An accepted header with its payload behind it is PING or UNKNOWN, by the payload alone. -/
theorem decodeReceived_whole (hfit : (lengthOf hi lo).toNat ≤ c.maxFrameLen) (hpos : 1 ≤ (lengthOf hi lo).toNat)
    (hwhole : (lengthOf hi lo).toNat ≤ rest.length) :
    decodeReceived c (hi :: lo :: rest) =
      if rest.take (lengthOf hi lo).toNat = pingPayload then .ok (.ping, rest.drop (lengthOf hi lo).toNat)
      else .ok (.unknown (rest.take (lengthOf hi lo).toNat), rest.drop (lengthOf hi lo).toNat) := by
  simp only [decodeReceived]
  rw [if_neg (Nat.not_lt.2 hfit), if_neg (mt half_eq_zero.1 (by omega)), if_neg (Nat.not_lt.2 hwhole)]

end

/-- A frame that is accepted and not empty is PING or UNKNOWN, by its payload alone. -/
theorem decodeReceived_encodeFrame {c : Config} {p : List Byte} (rest : List Byte) (hmax : c.maxFrameLen ≤ 65535)
    (hpos : 1 ≤ p.length) (hp : p.length ≤ c.maxFrameLen) :
    decodeReceived c (encodeFrame p ++ rest) =
      if p = pingPayload then .ok (.ping, rest) else .ok (.unknown p, rest) := by
  have hlen : (lengthOf (lenHiOf p.length) (lenLoOf p.length)).toNat = p.length := lengthOf_split (hp.trans hmax)
  have hwhole := decodeReceived_whole (c := c) (hi := lenHiOf p.length) (lo := lenLoOf p.length) (rest := p ++ rest)
    (hlen.trans_le hp) (hpos.trans_eq hlen.symm) (by rw [hlen, List.length_append]; omega)
  rw [hlen, List.take_left, List.drop_left] at hwhole
  exact hwhole

/-- All the decoder of received frames can answer. -/
theorem decodeReceived_cases (c : Config) (bytes : List Byte) :
    (bytes.length < 2 ∧ decodeReceived c bytes = .error .shortHeader) ∨
    ∃ hi lo rest, bytes = hi :: lo :: rest ∧
      ((c.maxFrameLen < (lengthOf hi lo).toNat ∧
          decodeReceived c bytes = .ok (.oversize (lengthOf hi lo), rest)) ∨
        ((lengthOf hi lo).toNat = 0 ∧ decodeReceived c bytes = .ok (.empty, rest)) ∨
        ((lengthOf hi lo).toNat ≤ c.maxFrameLen ∧ rest.length < (lengthOf hi lo).toNat ∧
          decodeReceived c bytes = .error .shortPayload) ∨
        ∃ p after, encodeFrame p ++ after = bytes ∧ 1 ≤ p.length ∧ p.length ≤ c.maxFrameLen ∧
          decodeReceived c bytes = if p = pingPayload then .ok (.ping, after) else .ok (.unknown p, after)) := by
  match bytes with
  | [] => exact .inl ⟨by decide, rfl⟩
  | [b] => exact .inl ⟨Nat.lt_succ_self 1, rfl⟩
  | hi :: lo :: rest =>
    refine .inr ⟨hi, lo, rest, rfl, ?_⟩
    rcases Nat.lt_or_ge c.maxFrameLen (lengthOf hi lo).toNat with hbig | hfit
    · exact .inl ⟨hbig, decodeReceived_oversize rest hbig⟩
    · rcases Nat.eq_zero_or_pos (lengthOf hi lo).toNat with hzero | hpos
      · exact .inr (.inl ⟨hzero, decodeReceived_empty hzero⟩)
      · rcases Nat.lt_or_ge rest.length (lengthOf hi lo).toNat with hshort | hwhole
        · exact .inr (.inr (.inl ⟨hfit, hshort, decodeReceived_short hfit hshort⟩))
        · have hlen := List.length_take_of_le hwhole
          exact .inr (.inr (.inr ⟨_, _, encodeFrame_take_append_drop hwhole, hpos.trans_eq hlen.symm,
            hlen.trans_le hfit, decodeReceived_whole hfit hpos hwhole⟩))

/-! ## The instruction a decoder answers -/

/-- The decoder of sent frames answers only the two PONG rows, each for its own bytes (R77). -/
theorem decodeSent_eq_ok {i : Instr} {bytes rest : List Byte} (h : decodeSent bytes = .ok (i, rest)) :
    encode i ++ rest = bytes ∧ i.view = .sent := by
  unfold decodeSent at h
  split at h
  · cases h; exact ⟨rfl, rfl⟩
  · cases h; exact ⟨rfl, rfl⟩
  · cases h

/-- The decoder of received frames answers only received rows, each for its own bytes and under its condition (R77). -/
theorem decodeReceived_eq_ok {c : Config} {i : Instr} {bytes rest : List Byte}
    (h : decodeReceived c bytes = .ok (i, rest)) :
    encode i ++ rest = bytes ∧ i.view = .received ∧ i.wf c = true := by
  rcases decodeReceived_cases c bytes with ⟨-, he⟩ | ⟨hi, lo, after, rfl, ⟨hbig, he⟩ | ⟨hzero, he⟩ | ⟨-, -, he⟩ |
    ⟨p, after, hbytes, hpos, hfit, he⟩⟩
  · rw [he] at h; cases h
  · rw [he] at h; cases h
    obtain ⟨hhi, hlo⟩ := split_lengthOf hi lo
    exact ⟨by rw [encode, hhi, hlo]; rfl, rfl, decide_eq_true hbig⟩
  · rw [he] at h; cases h
    obtain ⟨hhi, hlo⟩ := split_lengthOf hi lo
    rw [hzero] at hhi hlo
    exact ⟨by rw [← hhi, ← hlo]; rfl, rfl, rfl⟩
  · rw [he] at h; cases h
  · rw [he] at h
    split at h
    · subst p; cases h
      exact ⟨hbytes, rfl, decide_eq_true hfit⟩
    · rename_i hping
      cases h
      exact ⟨hbytes, rfl, by simp only [Instr.wf, hpos, hfit, hping, ne_eq, not_false_eq_true, decide_true, Bool.and_self]⟩

end Sys2Proof.Machine

namespace Sys2Proof.Proofs

open Sys2Proof.Machine

/-- Settles O13: a byte class and a sent row are read off their bytes; a received row is its header's branch of the decoder, and
for PING and UNKNOWN the payload then tells which. -/
theorem decodeOfEncodeGivesTheInstructionBack : Obligations.DecodeOfEncodeGivesTheInstructionBack := by
  intro c i rest hv hwf
  obtain ⟨-, hmax, -⟩ := hv
  cases i with
  | ping => exact decodeReceived_encodeFrame (p := pingPayload) rest hmax (by decide) (of_decide_eq_true hwf)
  | empty => rfl
  | oversize len =>
    have hlen := lengthOf_split_half len
    have hbig : c.maxFrameLen < (lengthOf (lenHiOf len.toNat) (lenLoOf len.toNat)).toNat := by
      rw [hlen]; exact of_decide_eq_true hwf
    exact (decodeReceived_oversize rest hbig).trans (by rw [hlen])
  | unknown p =>
    obtain ⟨⟨hpos, hfit⟩, hping⟩ : (1 ≤ p.length ∧ p.length ≤ c.maxFrameLen) ∧ p ≠ pingPayload := by
      simpa [Instr.wf] using hwf
    exact (decodeReceived_encodeFrame rest hmax hpos hfit).trans (if_neg hping)
  | pongV1 | pongV2 | hdrHi b | hdrLo b | payload b => rfl

/-- Settles O14: each view's decoder takes the bytes of the row it answers. -/
theorem decodedBytesAreTheInstructionsEncoding : Obligations.DecodedBytesAreTheInstructionsEncoding := by
  intro c v i bytes rest h
  cases v with
  | byteIn st =>
    cases bytes with
    | nil => cases h
    | cons b bs => cases h; cases st <;> exact ⟨rfl, rfl, fun hv => by cases hv⟩
  | received =>
    obtain ⟨hbytes, hview, hwf⟩ := decodeReceived_eq_ok h
    exact ⟨hbytes, hview, fun _ => hwf⟩
  | sent =>
    obtain ⟨hbytes, hview⟩ := decodeSent_eq_ok h
    exact ⟨hbytes, hview, fun hv => by cases hv⟩

/-- Settles O15: two branches of the decoder are errors, and each says which bytes are missing. -/
theorem onlyIncompleteFramesAreNotDecoded : Obligations.OnlyIncompleteFramesAreNotDecoded := by
  intro c bytes e h
  change decodeReceived c bytes = .error e at h
  rcases decodeReceived_cases c bytes with ⟨hshort, he⟩ | ⟨hi, lo, rest, hbytes, ⟨-, he⟩ | ⟨-, he⟩ | ⟨hfit, hshort, he⟩ |
    ⟨p, after, -, -, -, he⟩⟩
  · rw [he] at h; cases h
    exact .inl ⟨hshort, rfl⟩
  · rw [he] at h; cases h
  · rw [he] at h; cases h
  · rw [he] at h; cases h
    rw [lengthOf_toNat] at hfit hshort
    exact .inr ⟨hi, lo, rest, hbytes, hfit, hshort, rfl⟩
  · rw [he] at h
    split at h <;> cases h

/-- Settles O12: the header is the quotient and the remainder of the length by 256, and `lengthOf_split` reads it back. -/
theorem encodedHeaderIsReadBackAsTheLength : Obligations.EncodedHeaderIsReadBackAsTheLength := by
  intro q hq
  refine ⟨lenHiOf q.length, lenLoOf q.length, rfl, ?_, BitVec.toNat_ofNat _ _, lengthOf_split hq⟩
  rw [lenHiOf, BitVec.toNat_ofNat, Nat.mod_eq_of_lt (by omega)]

/-- Settles O16: the words are closed terms, which the decoder evaluates; a byte class takes any byte. -/
theorem tableWordsDecodeToTheirRows : Obligations.TableWordsDecodeToTheirRows :=
  ⟨rfl, rfl, rfl, rfl, rfl, rfl, rfl, fun _ => ⟨rfl, rfl, rfl⟩⟩

end Sys2Proof.Proofs
end

section
/-! PROOFS of what an instruction writes (spec/40_serial_frame_decoder.md section 6, spec/20_memory.md section 2): all the next
states of `exec`, one constructor an outcome, and the statements settled by going through them. -/

namespace Sys2Proof.Machine

/-! ## All the next states of an instruction -/

section
variable (s : State) (b : Byte)

@[simp] theorem heldHeader_cfg : (s.heldHeader b).cfg = s.cfg := rfl
@[simp] theorem heldHeader_st : (s.heldHeader b).st = .hdr := rfl
@[simp] theorem heldHeader_lenHi : (s.heldHeader b).lenHi = b := rfl
@[simp] theorem heldHeader_expectedLen : (s.heldHeader b).expectedLen = s.expectedLen := rfl
@[simp] theorem heldHeader_count : (s.heldHeader b).count = s.count := rfl
@[simp] theorem heldHeader_buf : (s.heldHeader b).buf = s.buf := rfl
@[simp] theorem heldHeader_deadline : (s.heldHeader b).deadline = s.now + s.cfg.tReasm := rfl
@[simp] theorem heldHeader_tx : (s.heldHeader b).tx = s.tx := rfl
@[simp] theorem heldHeader_now : (s.heldHeader b).now = s.now := rfl
@[simp] theorem heldHeader_input : (s.heldHeader b).input = s.input := rfl
@[simp] theorem heldHeader_ghost : (s.heldHeader b).ghost = s.ghost := rfl

end

/-- All an instruction can do when it answers a next state (the transition table of 40_serial_frame_decoder.md section 6). -/
inductive ExecTo (s : State) : Instr → State → Prop where
  | ping : ExecTo s .ping (s.completeFrame pingPayload)
  | pongV1 : ExecTo s .pongV1 (s.emit (encodeFrame (pongPayload .v1)))
  | pongV2 : ExecTo s .pongV2 (s.emit (encodeFrame (pongPayload .v2)))
  | empty : ExecTo s .empty (s.completeFrame [])
  | oversize (len : Half) : ExecTo s (.oversize len) (s.discard .oversize)
  | unknown (p : List Byte) : ExecTo s (.unknown p) (s.completeFrame p)
  | held (b : Byte) : ExecTo s (.hdrHi b) (s.heldHeader b)
  | tooLong (b : Byte) : s.cfg.maxFrameLen < (lengthOf s.lenHi b).toNat → ExecTo s (.hdrLo b) (s.discard .oversize)
  | zeroLength (b : Byte) : (lengthOf s.lenHi b).toNat = 0 → ExecTo s (.hdrLo b) (s.completeFrame [])
  | started (b : Byte) : 1 ≤ (lengthOf s.lenHi b).toNat → (lengthOf s.lenHi b).toNat ≤ s.cfg.maxFrameLen →
      ExecTo s (.hdrLo b) (s.startAccum (lengthOf s.lenHi b))
  | stored (b : Byte) : s.count + 1 ≠ s.expectedLen → ExecTo s (.payload b) (s.stored b)
  | last (b : Byte) (p : List Byte) : s.count + 1 = s.expectedLen →
      ExecTo s (.payload b) ((s.stored b).completeFrame p)

theorem execTo_of_exec {i : Instr} {s t : State} (h : exec i s = .next t) : ExecTo s i t := by
  cases i with
  | ping => cases h; exact .ping
  | pongV1 => cases h; exact .pongV1
  | pongV2 => cases h; exact .pongV2
  | empty => cases h; exact .empty
  | oversize len => cases h; exact .oversize len
  | unknown p => cases h; exact .unknown p
  | hdrHi b => cases h; exact .held b
  | hdrLo b =>
    rcases execHdrLo_cases s b with ⟨hlen, he⟩ | ⟨hlen, he⟩ | ⟨hpos, hfit, he⟩
    · cases he.symm.trans h; exact .tooLong b hlen
    · cases he.symm.trans h; exact .zeroLength b hlen
    · cases he.symm.trans h; exact .started b hpos hfit
  | payload b =>
    obtain ⟨-, ⟨hmid, rfl⟩ | ⟨hlast, p, -, rfl⟩⟩ := execPayload_next h
    · exact .stored b hmid
    · exact .last b p hlast

/-! ## What each register is written by -/

section
variable {i : Instr} {s t : State}

/-- Only HDR_HI writes `len_hi` and `deadline` (R101). -/
theorem ExecTo.lenHi_deadline (h : ExecTo s i t) (hi : ∀ b, i ≠ .hdrHi b) :
    t.lenHi = s.lenHi ∧ t.deadline = s.deadline := by
  cases h with
  | held b => exact absurd rfl (hi b)
  | _ => simp

/-- Only HDR_LO writes `expected_len` (R105). -/
theorem ExecTo.expectedLen (h : ExecTo s i t) (hi : ∀ b, i ≠ .hdrLo b) : t.expectedLen = s.expectedLen := by
  cases h with
  | started b => exact absurd rfl (hi b)
  | _ => simp

/-- Only HDR_LO and PAYLOAD write `count` (R105, R106). -/
theorem ExecTo.count (h : ExecTo s i t) (hi : ∀ b, i ≠ .hdrLo b ∧ i ≠ .payload b) : t.count = s.count := by
  cases h with
  | started b => exact absurd rfl (hi b).1
  | stored b | last b => exact absurd rfl (hi b).2
  | _ => simp

/-- A sent row leaves `st` alone. -/
theorem ExecTo.st_of_sent (h : ExecTo s i t) (hi : i.view = .sent) : t.st = s.st := by
  cases h with
  | pongV1 | pongV2 => rfl
  | _ => cases hi

/-- No instruction takes a byte of `tx` back. -/
theorem ExecTo.tx_grows (h : ExecTo s i t) : ∃ out, t.tx = s.tx ++ out := by
  cases h <;> simp

/-- Only the sent rows and a completion with `08 01` write `tx`. -/
theorem ExecTo.tx_of_silent (h : ExecTo s i t) (hping : i ≠ .ping) (hv1 : i ≠ .pongV1) (hv2 : i ≠ .pongV2)
    (hunknown : i ≠ .unknown pingPayload) (hpayload : ∀ b, i ≠ .payload b) : t.tx = s.tx := by
  have hempty : responseTo s.cfg [] = [] := responseTo_of_ne _ (by decide)
  cases h with
  | ping => exact absurd rfl hping
  | pongV1 => exact absurd rfl hv1
  | pongV2 => exact absurd rfl hv2
  | unknown p =>
    have hne : p ≠ pingPayload := fun hp => hunknown (hp ▸ rfl)
    rw [completeFrame_tx, responseTo_of_ne _ hne, List.append_nil]
  | empty | zeroLength => rw [completeFrame_tx, hempty, List.append_nil]
  | stored b | last b => exact absurd rfl (hpayload b)
  | held | oversize | tooLong | started => rfl

/-- Only PAYLOAD stores; the rows that end a frame leave no byte (41_reassembly_buffer.md R134, R135). -/
theorem ExecTo.buf (h : ExecTo s i t) (hi : ∀ b, i ≠ .payload b) : t.buf = s.buf ∨ (t.st = .idle ∧ t.buf = []) := by
  cases h with
  | stored b | last b => exact absurd rfl (hi b)
  | held | started | pongV1 | pongV2 => exact .inl rfl
  | _ => simp

/-- The rows that end a frame leave the block in IDLE with no byte of `buf` a value (40_serial_frame_decoder.md R108,
60_exceptions.md R225). -/
theorem ExecTo.ended (h : ExecTo s i t) (hi : i.view = .received ∨
      (∃ b, i = .hdrLo b ∧ ((lengthOf s.lenHi b).toNat = 0 ∨ s.cfg.maxFrameLen < (lengthOf s.lenHi b).toNat)) ∨
      ∃ b, i = .payload b ∧ s.count + 1 = s.expectedLen) : t.st = .idle ∧ t.buf = [] := by
  cases h with
  | pongV1 | pongV2 | held => simp [Instr.view] at hi
  | started b hpos hfit =>
    obtain hv | ⟨b', hb, hlen⟩ | ⟨b', hb, -⟩ := hi
    · cases hv
    · cases hb; omega
    · cases hb
  | stored b hmid =>
    obtain hv | ⟨b', hb, -⟩ | ⟨b', -, hlast⟩ := hi
    · cases hv
    · cases hb
    · exact absurd hlast hmid
  | _ => simp

end

/-! ## Where PAYLOAD stops -/

/-- The range from 0 can be read exactly when every byte of it has been stored. -/
theorem Memory.exists_readRange_iff {m : Memory} {n : Nat} :
    (∃ p, m.readRange 0 n = some p) ↔ ∀ a, a < n → (m.read a).isSome := by
  constructor
  · rintro ⟨p, hp⟩ a ha
    obtain ⟨hlen, hread⟩ := Memory.readRange_eq_some.1 hp
    have ha' := hread a ha
    rw [Nat.zero_add] at ha'
    rw [ha', List.getElem?_eq_getElem (hlen ▸ ha)]
    rfl
  · exact fun h => Memory.readRange_isSome fun a ha => by rw [Nat.zero_add]; exact h a ha

/-- With the last byte stored, the payload can be taken exactly when every other byte of it was stored before (R133). -/
theorem exists_take_stored_iff {s : State} (b : Byte) (h : s.count + 1 = s.expectedLen) :
    (∃ p, take (s.stored b) = .ok p) ↔
      ∀ a, a < s.expectedLen.toNat → a ≠ storeIndex s → s.buf.read a ≠ none := by
  have hcount : 0 + s.expectedLen.toNat ≤ (s.count + 1).toNat := by rw [h, Nat.zero_add]
  have htake (p : List Byte) : take (s.stored b) = .ok p ↔
      (s.buf.write (storeIndex s) b).readRange 0 s.expectedLen.toNat = some p :=
    memRead_eq_ok.trans (and_iff_right hcount)
  simp only [htake, Memory.exists_readRange_iff, Memory.read_write]
  refine forall₂_congr fun a _ => ?_
  by_cases ha : a = storeIndex s
  · simp [ha]
  · simp [ha, Option.isSome_iff_ne_none]

/-- The last payload byte faults exactly when the payload cannot be taken. -/
theorem finishPayload_fault_iff {s : State} : (∃ f, finishPayload s = .fault f) ↔ ¬ ∃ p, take s = .ok p := by
  unfold finishPayload
  cases take s <;> simp

/-- PAYLOAD faults exactly at an index above the capacity, or with the last byte of a payload that has a hole (log 21). -/
theorem execPayload_fault_iff (b : Byte) (s : State) :
    (∃ f, exec (.payload b) s = .fault f) ↔ s.cfg.maxFrameLen ≤ s.count.toNat ∨
      (s.count + 1 = s.expectedLen ∧ ∃ a, a < s.expectedLen.toNat ∧ a ≠ storeIndex s ∧ s.buf.read a = none) := by
  rcases Nat.lt_or_ge s.count.toNat s.cfg.maxFrameLen with hfit | hfull
  · rw [execPayload_of_lt hfit]
    by_cases hlast : s.count + 1 = s.expectedLen
    · rw [if_pos hlast, finishPayload_fault_iff, exists_take_stored_iff b hlast]
      simp only [Nat.not_le.2 hfit, hlast, false_or, true_and, not_forall, not_not, ne_eq, exists_prop]
    · rw [if_neg hlast]
      simp only [Nat.not_le.2 hfit, hlast, false_or, false_and, reduceCtorEq, exists_false]
  · rw [execPayload_of_ge hfull]
    simp [hfull]

/-- Every instruction answers a next state or a fault, and a fault only if it is PAYLOAD. -/
theorem exec_next_or_payload_fault (i : Instr) (s : State) :
    (∃ t, exec i s = .next t) ∨ ∃ b f, i = .payload b ∧ exec i s = .fault f := by
  cases i with
  | hdrLo b =>
    obtain ⟨-, h⟩ | ⟨-, h⟩ | ⟨-, -, h⟩ := execHdrLo_cases s b
    all_goals exact .inl ⟨_, h⟩
  | payload b =>
    rcases Nat.lt_or_ge s.count.toNat s.cfg.maxFrameLen with hfit | hfull
    · rw [execPayload_of_lt hfit]
      split
      · unfold finishPayload
        split
        · exact .inl ⟨_, rfl⟩
        · exact .inr ⟨b, _, rfl, rfl⟩
      · exact .inl ⟨_, rfl⟩
    · exact .inr ⟨b, _, rfl, execPayload_of_ge hfull⟩
  | _ => exact .inl ⟨_, rfl⟩

end Sys2Proof.Machine

namespace Sys2Proof.Proofs

open Sys2Proof.Machine

/-- Settles O26: each clause goes through the outcomes of `exec`; bytes put out by a row that answers nothing would contradict
`ExecTo.tx_of_silent`. -/
theorem instructionsWriteOnlyTheirOwnRegisters : Obligations.InstructionsWriteOnlyTheirOwnRegisters := by
  intro i s t h
  have hto := execTo_of_exec h
  obtain ⟨out, hout⟩ := hto.tx_grows
  refine ⟨hto.lenHi_deadline, hto.expectedLen, hto.count, ?_, ⟨out, hout, fun hne => ?_⟩, exec_environment h⟩
  · rintro (rfl | rfl)
    · exact hto.st_of_sent rfl
    · exact hto.st_of_sent rfl
  · by_contra hrow
    push Not at hrow
    obtain ⟨hping, hv1, hv2, hunknown, hpayload⟩ := hrow
    have hsilent : s.tx ++ out = s.tx := hout.symm.trans (hto.tx_of_silent hping hv1 hv2 hunknown hpayload)
    exact hne (List.append_right_eq_self.1 hsilent)

/-- Settles O27: `buf` is written by a store, at `storeIndex`, and emptied by the end of a frame. -/
theorem onlyPayloadWritesTheBuffer : Obligations.OnlyPayloadWritesTheBuffer := by
  intro i s t h
  have hto := execTo_of_exec h
  refine ⟨hto.buf, ?_, ?_⟩
  · rintro (⟨b, rfl⟩ | ⟨b, rfl, hst⟩ | rfl | rfl)
    · cases hto; rfl
    · cases hto with
      | started => rfl
      | tooLong => cases hst
      | zeroLength => rw [completeFrame_st] at hst; cases hst
    · cases hto; rfl
    · cases hto; rfl
  · rintro b rfl
    cases hto with
    | stored _ hmid =>
      exact ⟨fun _ => ⟨Memory.read_write_same _ _ _, fun a ha => Memory.read_write_ne _ _ ha⟩,
        fun hlast => absurd hlast hmid⟩
    | last _ p hlast =>
      exact ⟨fun hmid => absurd hlast hmid, fun _ => ⟨completeFrame_st _ _, completeFrame_buf _ _⟩⟩

/-- Settles O28: PAYLOAD alone can fault, and `execPayload_fault_iff` says where. -/
theorem onlyUndefinedBufferAccessesStop : Obligations.OnlyUndefinedBufferAccessesStop := by
  intro i s
  constructor
  · intro r hr
    obtain ⟨t, ht⟩ | ⟨b, f, -, hf⟩ := exec_next_or_payload_fault i s
    · cases ht.symm.trans hr
    · cases hf.symm.trans hr
  · constructor
    · rintro ⟨f, hf⟩
      obtain ⟨t, ht⟩ | ⟨b, -, rfl, -⟩ := exec_next_or_payload_fault i s
      · cases ht.symm.trans hf
      · exact ⟨b, rfl, (execPayload_fault_iff b s).1 ⟨f, hf⟩⟩
    · rintro ⟨b, rfl, hstop⟩
      exact (execPayload_fault_iff b s).2 hstop

/-- Settles O1: HDR_HI writes these three registers. -/
theorem hdrHiHoldsTheByteAndArms : Obligations.HdrHiHoldsTheByteAndArms := fun _ _ => rfl

/-- Settles O4: HDR_LO takes its first branch, which is the discard of the OVERSIZE row. -/
theorem oversizedHeaderIsDiscardedAtItsSecondByte : Obligations.OversizedHeaderIsDiscardedAtItsSecondByte := by
  intro b s hbig
  rw [← lengthOf_toNat] at hbig
  rw [execHdrLo_oversize hbig, exec_oversize, discard_eq]
  exact ⟨rfl, rfl⟩

/-- Settles O10: a sent row is the emission of its frame. -/
theorem sentRowsAppendTheirFrame : Obligations.SentRowsAppendTheirFrame := fun _ => ⟨rfl, rfl⟩

end Sys2Proof.Proofs
end

section
/-! PROOFS of single events (spec/45_engine_operations.md section 1, spec/44_recovery_policy.md). Every event but RESET is the
check at its time and then its bytes; neither the pending events nor the log is read by them; and what the handling of one byte
keeps, every event keeps. The statements about one step are settled from these. -/

namespace Sys2Proof.Machine

/-! ## An event as a check and its bytes -/

/-- The clock reading an event carries; RESET carries none (45_engine_operations.md R200). -/
def Event.time : Event → Option Nat
  | .reset => none
  | .rx _ n | .chunk _ n | .tick n => some n

theorem Event.time_eq_none {e : Event} (h : e.time = none) : e = .reset := by
  cases e with
  | reset => rfl
  | _ => cases h

/-- An event that carries a time is the check at that time and then the reception of its bytes (R202 to R204). -/
theorem runEvent_of_time {e : Event} {n : Nat} (h : e.time = some n) (s : State) :
    runEvent e s = rxBytes e.bytes (s.sample n).checkDeadline := by
  cases e with
  | reset => cases h
  | rx b m => cases h; exact (andThen_pure _).symm.trans (rxBytes_checkDeadline b [] _).symm
  | chunk bs m =>
    cases h
    cases bs with
    | nil => rfl
    | cons b bs => exact (rxBytes_checkDeadline b bs _).symm
  | tick m => cases h; rfl

/-- A step on such an event, when it is the next one pending. -/
theorem step_of_time {s : State} {e : Event} {es : List Event} {n : Nat} (hin : s.input = e :: es)
    (h : e.time = some n) : step s = rxBytes e.bytes ({ s with input := es, now := n } : State).checkDeadline :=
  (step_cons hin).trans (runEvent_of_time h _)

/-- Where no frame is in flight or its deadline is ahead, the check does nothing (R187). -/
theorem checkDeadline_of_inTime {s : State} (h : s.st = .idle ∨ s.now < s.deadline) : s.checkDeadline = s :=
  h.elim checkDeadline_of_idle checkDeadline_of_lt

/-- There a byte is its class at once. -/
theorem rxByte_of_inTime {s : State} (b : Byte) (h : s.st = .idle ∨ s.now < s.deadline) :
    rxByte b s = exec (decodeByte s.st b) s := by
  rw [rxByte, checkDeadline_of_inTime h]

/-- A byte in time in a frame in flight leaves the deadline alone (44_recovery_policy.md R190). -/
theorem rxByte_deadline {s t : State} {b : Byte} (hst : s.st ≠ .idle) (hnow : s.now < s.deadline)
    (h : rxByte b s = .next t) : t.deadline = s.deadline := by
  rw [rxByte_inTime b hnow] at h
  refine ((execTo_of_exec h).lenHi_deadline fun c hc => ?_).2
  cases hs : s.st with
  | idle => exact hst hs
  | hdr | accum => rw [hs] at hc; cases hc

/-- The header of an oversized frame, in a chunk in IDLE, is discarded, and the bytes after it are received next (R104, D9). -/
theorem step_chunk_oversize {s : State} {hi lo : Byte} {rest : List Byte} {n : Nat} {es : List Event} (hst : s.st = .idle)
    (hT : 1 ≤ s.cfg.tReasm) (hbig : s.cfg.maxFrameLen < (lengthOf hi lo).toNat) :
    step { s with input := .chunk (hi :: lo :: rest) n :: es } =
      rxBytes rest ((({ s with input := es, now := n } : State).heldHeader hi).discard .oversize) := by
  let v : State := { s with input := es, now := n }
  have hlo : exec (.hdrLo lo) (v.heldHeader hi) = .next ((v.heldHeader hi).discard .oversize) := execHdrLo_oversize hbig
  calc step { s with input := .chunk (hi :: lo :: rest) n :: es }
      = rxBytes (hi :: lo :: rest) v := step_chunk rfl (List.cons_ne_nil _ _)
    _ = andThen (exec (.hdrLo lo) (v.heldHeader hi)) (rxBytes rest) := rxBytes_header hi lo rest hst hT
    _ = _ := by rw [hlo, andThen_next]

/-! ## What no operation reads: the pending events and the log so far -/

/-- An outcome with its next state, if it has one, changed by `f`. -/
def mapNext (f : State → State) : Result → Result
  | .next s => .next (f s)
  | .fault r => .fault r
  | .refused r => .refused r

@[simp] theorem mapNext_next (f : State → State) (s : State) : mapNext f (.next s) = .next (f s) := rfl
@[simp] theorem mapNext_fault (f : State → State) (r : Fault) : mapNext f (.fault r) = .fault r := rfl
@[simp] theorem mapNext_refused (f : State → State) (r : Refusal) : mapNext f (.refused r) = .refused r := rfl

/-- The state with other pending events and with older entries in front of its ghost log. -/
def State.withRecord (s : State) (es : List Event) (log : List TraceEntry) : State :=
  { s with input := es, ghost := log ++ s.ghost }

section
variable (es : List Event) (log : List TraceEntry)

theorem discard_withRecord (s : State) (c : Cause) :
    (s.withRecord es log).discard c = (s.discard c).withRecord es log := by
  simp [discard_eq, State.withRecord]

theorem completeFrame_withRecord (s : State) (p : List Byte) :
    (s.withRecord es log).completeFrame p = (s.completeFrame p).withRecord es log := by
  simp [completeFrame_eq, State.withRecord]

theorem checkDeadline_withRecord (s : State) :
    (s.withRecord es log).checkDeadline = s.checkDeadline.withRecord es log := by
  obtain ⟨he, hquiet⟩ | ⟨he, hst, hnow⟩ := checkDeadline_cases s
  · rw [he]; exact checkDeadline_of_inTime hquiet
  · rw [he, ← discard_withRecord]; exact checkDeadline_of_expired hst hnow

theorem finishPayload_withRecord (s : State) :
    finishPayload (s.withRecord es log) = mapNext (·.withRecord es log) (finishPayload s) := by
  have htake : take (s.withRecord es log) = take s := rfl
  unfold finishPayload
  rw [htake]
  cases take s with
  | error f => rfl
  | ok p => exact congrArg Host.Outcome.next (completeFrame_withRecord es log s p)

theorem exec_withRecord (i : Instr) (s : State) :
    exec i (s.withRecord es log) = mapNext (·.withRecord es log) (exec i s) := by
  cases i with
  | ping | empty | unknown p => exact congrArg _ (completeFrame_withRecord es log s _)
  | oversize len => exact congrArg _ (discard_withRecord es log s _)
  | pongV1 | pongV2 | hdrHi b => rfl
  | hdrLo b =>
    obtain ⟨hlen, he⟩ | ⟨hlen, he⟩ | ⟨hpos, hfit, he⟩ := execHdrLo_cases s b
    · rw [he, mapNext_next, ← discard_withRecord]; exact execHdrLo_oversize hlen
    · rw [he, mapNext_next, ← completeFrame_withRecord]; exact execHdrLo_zero hlen
    · rw [he]; exact execHdrLo_start hpos hfit
  | payload b =>
    rcases Nat.lt_or_ge s.count.toNat s.cfg.maxFrameLen with hfit | hfull
    · rw [execPayload_of_lt hfit, execPayload_of_lt (s := s.withRecord es log) hfit]
      by_cases hlast : s.count + 1 = s.expectedLen
      · rw [if_pos hlast]; exact (if_pos hlast).trans (finishPayload_withRecord es log (s.stored b))
      · rw [if_neg hlast]; exact if_neg hlast
    · rw [execPayload_of_ge hfull]; exact execPayload_of_ge hfull

theorem rxByte_withRecord (b : Byte) (s : State) :
    rxByte b (s.withRecord es log) = mapNext (·.withRecord es log) (rxByte b s) := by
  rw [rxByte, checkDeadline_withRecord]
  exact exec_withRecord es log _ _

theorem rxBytes_withRecord (bs : List Byte) (s : State) :
    rxBytes bs (s.withRecord es log) = mapNext (·.withRecord es log) (rxBytes bs s) := by
  induction bs generalizing s with
  | nil => rfl
  | cons b bs ih =>
    simp only [rxBytes, rxByte_withRecord]
    cases rxByte b s with
    | next t => exact ih t
    | fault r | refused r => rfl

/-- No event but RESET, which empties the log, reads the pending events or the log. -/
theorem runEvent_withRecord {e : Event} {n : Nat} (h : e.time = some n) (s : State) :
    runEvent e (s.withRecord es log) = mapNext (·.withRecord es log) (runEvent e s) := by
  rw [runEvent_of_time h, runEvent_of_time h, ← rxBytes_withRecord, ← checkDeadline_withRecord]
  rfl

end

/-- RX events at one time, the time now, are the reception of their bytes, with the events after them still pending. -/
theorem runFor_rx_eq_rxBytes (bs : List Byte) (n : Nat) (es : List Event) {s : State} (hnow : s.now = n) :
    runFor bs.length { s with input := bs.map (fun b => Event.rx b n) ++ es } = rxBytes bs { s with input := es } := by
  induction bs generalizing s with
  | nil => rfl
  | cons b bs ih =>
    subst hnow
    let pending := bs.map (fun b => Event.rx b s.now) ++ es
    have hbyte : step { s with input := Event.rx b s.now :: pending } =
        mapNext (·.withRecord pending []) (rxByte b { s with input := es }) :=
      rxByte_withRecord pending [] b { s with input := es }
    show andThen (step { s with input := Event.rx b s.now :: pending }) (runFor bs.length) =
      andThen (rxByte b { s with input := es }) (rxBytes bs)
    rw [hbyte]
    cases hrx : rxByte b { s with input := es } with
    | next t =>
      obtain ⟨-, hnow, rfl⟩ := rxByte_environment hrx
      exact ih (s := t) hnow
    | fault r | refused r => rfl

/-- An event answers the same with any other log, but for the log. -/
theorem runEvent_setGhost (e : Event) (s : State) (g : List TraceEntry) :
    (∀ t, runEvent e s = .next t → ∃ g', runEvent e { s with ghost := g } = .next { t with ghost := g' }) ∧
    ∀ f, runEvent e s = .fault f → runEvent e { s with ghost := g } = .fault f := by
  cases htime : e.time with
  | none =>
    cases Event.time_eq_none htime
    exact ⟨fun t ht => ⟨[], by cases ht; rfl⟩, fun f hf => by cases hf⟩
  | some n =>
    have hlog (log : List TraceEntry) : runEvent e { s with ghost := log } =
        mapNext (·.withRecord s.input log) (runEvent e { s with ghost := [] }) := by
      rw [← runEvent_withRecord _ _ htime, State.withRecord, List.append_nil]
    have hown := hlog s.ghost
    rw [hlog g]
    cases hrun : runEvent e { s with ghost := [] } with
    | next u =>
      rw [hrun] at hown
      exact ⟨fun t ht => ⟨g ++ u.ghost, by cases hown.symm.trans ht; rfl⟩, fun f hf => by cases hown.symm.trans hf⟩
    | fault r =>
      rw [hrun] at hown
      exact ⟨fun t ht => (by cases hown.symm.trans ht), fun f hf => hown.symm.trans hf⟩
    | refused r =>
      rw [hrun] at hown
      exact ⟨fun t ht => (by cases hown.symm.trans ht), fun f hf => hown.symm.trans hf⟩

/-! ## What every byte keeps, and what every step keeps -/

/-- A property of states that everything one received byte can do keeps: the deadline check, and each byte class in its state. -/
structure ByteClosed (P : State → Prop) : Prop where
  held : ∀ s b, s.st = .idle → P s → P (s.heldHeader b)
  started : ∀ s len, s.st = .hdr → P s → P (s.startAccum len)
  stored : ∀ s b, s.st = .accum → P s → P (s.stored b)
  discarded : ∀ s c, P s → P (s.discard c)
  completed : ∀ s p, P s → P (s.completeFrame p)

/-- A property that the rest of an event keeps too: the next event is taken, the clock is sampled, the block is RESET. -/
structure StepClosed (P : State → Prop) : Prop extends ByteClosed P where
  taken : ∀ s es, P s → P { s with input := es }
  sampled : ∀ s n, P s → P (s.sample n)
  restarted : ∀ s, P s → P s.restart

section
variable {P : State → Prop} {s t : State}

theorem ByteClosed.checkDeadline (hP : ByteClosed P) (hs : P s) : P s.checkDeadline := by
  obtain ⟨he, -⟩ | ⟨he, -, -⟩ := checkDeadline_cases s
  · rwa [he]
  · rw [he]; exact hP.discarded s _ hs

theorem ByteClosed.exec {b : Byte} (hP : ByteClosed P) (hs : P s) (h : exec (decodeByte s.st b) s = .next t) : P t := by
  have hto := execTo_of_exec h
  cases hst : s.st with
  | idle =>
    rw [hst] at hto
    cases hto
    exact hP.held s b hst hs
  | hdr =>
    rw [hst] at hto
    cases hto with
    | tooLong => exact hP.discarded s _ hs
    | zeroLength => exact hP.completed s _ hs
    | started => exact hP.started s _ hst hs
  | accum =>
    rw [hst] at hto
    cases hto with
    | stored => exact hP.stored s b hst hs
    | last _ p => exact hP.completed _ p (hP.stored s b hst hs)

theorem ByteClosed.rxBytes {bs : List Byte} (hP : ByteClosed P) (hs : P s) (h : rxBytes bs s = .next t) : P t := by
  induction bs generalizing s with
  | nil => cases h; exact hs
  | cons b bs ih =>
    obtain ⟨u, hu, ht⟩ := andThen_eq_next.1 h
    exact ih (hP.exec (hP.checkDeadline hs) hu) ht

theorem StepClosed.step (hP : StepClosed P) (hs : P s) (h : step s = .next t) : P t := by
  cases hin : s.input with
  | nil => cases (step_nil hin).symm.trans h; exact hs
  | cons e es =>
    rw [step_cons hin] at h
    have hs := hP.taken s es hs
    cases htime : e.time with
    | none =>
      cases Event.time_eq_none htime
      cases h
      exact hP.restarted _ hs
    | some n =>
      rw [runEvent_of_time htime] at h
      exact hP.rxBytes (hP.checkDeadline (hP.sampled _ n hs)) h

end

/-! ## Three kept properties -/

/-- Outside ACCUM no byte of `buf` has a value (41_reassembly_buffer.md R135, D23). -/
theorem stepClosed_absent : StepClosed fun s => s.st ≠ .accum → s.buf = [] where
  held s b hst hs := fun _ => hs (by rw [hst]; decide)
  started s len _ _ := fun h => absurd rfl h
  stored s b hst _ := fun h => absurd hst h
  discarded s c _ := fun _ => rfl
  completed s p _ := fun _ => completeFrame_buf s p
  taken s es hs := hs
  sampled s n hs := hs
  restarted s _ := fun _ => rfl

/-- A frame in flight that started at the time of this event has the deadline of this event (44_recovery_policy.md R186). -/
theorem byteClosed_startedNow : ByteClosed fun s => s.st = .idle ∨ s.deadline = s.now + s.cfg.tReasm where
  held s b _ _ := .inr rfl
  started s len hst hs := .inr (hs.resolve_left (by rw [hst]; decide))
  stored s b hst hs := .inr (hs.resolve_left (by rw [hst]; decide))
  discarded s c _ := .inl rfl
  completed s p _ := .inl (completeFrame_st s p)

/-- Once the deadline has been checked it stays ahead of the clock (R203, "Equivalence"). -/
theorem byteClosed_inTime :
    ByteClosed fun s => 1 ≤ s.cfg.tReasm ∧ (s.st = .idle ∨ s.now < s.deadline) where
  held s b _ hs := ⟨hs.1, .inr (Nat.lt_add_of_pos_right hs.1)⟩
  started s len hst hs := ⟨hs.1, .inr (hs.2.resolve_left (by rw [hst]; decide))⟩
  stored s b hst hs := ⟨hs.1, .inr (hs.2.resolve_left (by rw [hst]; decide))⟩
  discarded s c hs := ⟨hs.1, .inl rfl⟩
  completed s p hs := ⟨by rw [completeFrame_cfg]; exact hs.1, .inl (completeFrame_st s p)⟩

/-- Bytes received where the deadline has been checked need no check of their own. -/
theorem rxBytes_eq_rxUnchecked {s : State} (bs : List Byte) (hT : 1 ≤ s.cfg.tReasm)
    (h : s.st = .idle ∨ s.now < s.deadline) : rxBytes bs s = rxUnchecked bs s := by
  induction bs generalizing s with
  | nil => rfl
  | cons b bs ih =>
    simp only [rxBytes, rxUnchecked, rxByte_of_inTime b h]
    cases hexec : exec (decodeByte s.st b) s with
    | next t =>
      obtain ⟨hT', hin⟩ := byteClosed_inTime.exec ⟨hT, h⟩ hexec
      exact ih hT' hin
    | fault r | refused r => rfl

/-! ## The output and the discards, counted in the log -/

@[simp] theorem pings_discard (s : State) (c : Cause) : (s.discard c).pings = s.pings := by
  simp [State.pings]

theorem pings_completeFrame_ping (s : State) : (s.completeFrame pingPayload).pings = s.pings + 1 := by
  simp [State.pings, completionEntries_ping]

theorem pings_completeFrame_of_ne (s : State) {p : List Byte} (h : p ≠ pingPayload) :
    (s.completeFrame p).pings = s.pings := by
  simp [State.pings, completionEntries_of_ne _ h, h]

/-- A completion keeps the output's shape: a PING adds one PONG, any other payload nothing (43_serial_frame_encoder.md R175). -/
theorem outputShape_completeFrame {s : State} (p : List Byte) (h : s.OutputShape) : (s.completeFrame p).OutputShape := by
  have hcfg := completeFrame_cfg s p
  unfold State.OutputShape at *
  by_cases hp : p = pingPayload
  · subst hp
    rw [completeFrame_tx, pings_completeFrame_ping, hcfg, responseTo_ping, h, List.replicate_succ', List.flatten_append]
    simp
  · rw [completeFrame_tx, pings_completeFrame_of_ne s hp, hcfg, responseTo_of_ne _ hp, List.append_nil, h]

theorem stepClosed_outputShape : StepClosed State.OutputShape where
  held _ _ _ hs := hs
  started _ _ _ hs := hs
  stored _ _ _ hs := hs
  discarded s c hs := by
    unfold State.OutputShape
    rw [pings_discard]
    exact hs
  completed _ p hs := outputShape_completeFrame p hs
  taken _ _ hs := hs
  sampled _ _ hs := hs
  restarted _ _ := rfl

theorem discards_discard (s : State) (c : Cause) : (s.discard c).discards = s.discards + 1 := by
  cases c with
  | truncated => simp [State.discards]; omega
  | oversize => simp [State.discards]; omega

theorem discards_completeFrame (s : State) (p : List Byte) : (s.completeFrame p).discards = s.discards := by
  rw [State.discards, completeFrame_ghost, completionEntries_eq_ite]
  split <;> simp [State.discards]

/-- An instruction discards at most once (60_exceptions.md section 4). -/
theorem ExecTo.discards {i : Instr} {s t : State} (h : ExecTo s i t) : t.discards ≤ s.discards + 1 := by
  cases h with
  | oversize | tooLong => exact (discards_discard s _).le
  | ping | empty | unknown | zeroLength => exact (discards_completeFrame s _).trans_le (Nat.le_succ _)
  | last b p => exact (discards_completeFrame (s.stored b) p).trans_le (Nat.le_succ _)
  | pongV1 | pongV2 | held | started | stored => exact Nat.le_succ _

/-- A received byte discards at most once: after an expired frame it is a first length byte, which discards nothing (D6). -/
theorem rxByte_discards {b : Byte} {s t : State} (h : rxByte b s = .next t) : t.discards ≤ s.discards + 1 := by
  obtain ⟨he, -⟩ | ⟨-, hst, hreached⟩ := checkDeadline_cases s
  · rw [rxByte, he] at h
    exact (execTo_of_exec h).discards
  · cases (rxByte_expired b hst hreached).symm.trans h
    exact (discards_discard s .truncated).le

end Sys2Proof.Machine

namespace Sys2Proof.Proofs

open Sys2Proof.Machine

/-- Settles O40: the frame's bytes complete it, or its header is too long; in both cases what is left is the row's own action,
which reads nothing of `buf`. -/
theorem wholeFrameStepRunsItsRow : Obligations.WholeFrameStepRunsItsRow := by
  intro i n es s hv hst hview hwf
  have hframe {p : List Byte} (hp : p.length ≤ s.cfg.maxFrameLen) :
      step { s with input := .chunk (encodeFrame p) n :: es } =
        .next (({ s with input := es, now := n } : State).afterFrame p) := step_chunk_encodeFrame rfl hv hst hp
  cases i with
  | ping =>
    refine (hframe (p := pingPayload) (pingPayload_fits hv)).trans (congrArg _ ?_)
    rw [State.afterFrame, completeFrame_eq, completeFrame_eq]
    rfl
  | empty =>
    have hp : ([] : List Byte).length ≤ s.cfg.maxFrameLen := Nat.zero_le _
    exact hframe hp
  | oversize len =>
    have hbig : s.cfg.maxFrameLen < (lengthOf (lenHiOf len.toNat) (lenLoOf len.toNat)).toNat := by
      rw [lengthOf_split_half]; exact of_decide_eq_true hwf
    exact step_chunk_oversize hst hv.2.2 hbig
  | unknown p =>
    obtain ⟨⟨hpos, hfit⟩, -⟩ : (1 ≤ p.length ∧ p.length ≤ s.cfg.maxFrameLen) ∧ p ≠ pingPayload := by
      simpa [Instr.wf] using hwf
    refine (hframe hfit).trans (congrArg _ ?_)
    cases p with
    | nil => cases hpos
    | cons b bs =>
      rw [State.afterFrame, completeFrame_eq, completeFrame_eq]
      rfl
  | pongV1 | pongV2 | hdrHi | hdrLo | payload => cases hview

/-- Settles O21: the chunk receives its bytes at its time, and so do as many RX events. -/
theorem chunkIsItsRxEventsInOrder : Obligations.ChunkIsItsRxEventsInOrder := by
  intro bs n es s hne
  rw [step_chunk (s := { s with input := .chunk bs n :: es }) rfl hne]
  obtain ⟨b, bs, rfl⟩ := List.exists_cons_of_ne_nil hne
  exact (runFor_rx_eq_rxBytes (b :: bs) n es (s := { s with now := n }) rfl).symm

/-- Settles O22: after the one check the deadline stays ahead, so no later check does anything. -/
theorem oneDeadlineCheckPerChunkIsEnough : Obligations.OneDeadlineCheckPerChunkIsEnough := by
  intro bs n es s hT
  let u : State := { s with input := es, now := n }
  have hin : u.checkDeadline.st = .idle ∨ u.checkDeadline.now < u.checkDeadline.deadline := by
    rw [checkDeadline_now, checkDeadline_deadline]
    exact or_iff_not_imp_left.2 (checkDeadline_ahead u)
  calc step { s with input := .chunk bs n :: es }
      = rxBytes bs u.checkDeadline :=
        step_of_time (s := { s with input := .chunk bs n :: es }) (e := .chunk bs n) rfl rfl
    _ = rxUnchecked bs u.checkDeadline := rxBytes_eq_rxUnchecked bs (by rw [checkDeadline_cfg]; exact hT) hin

/-- Settles O29: a step is one event, and no event writes the parameters or the events after it. -/
theorem parametersNeverChange : Obligations.ParametersNeverChange := by
  intro s t h
  cases hin : s.input with
  | nil =>
    cases (step_nil hin).symm.trans h
    exact ⟨rfl, hin⟩
  | cons e es => exact runEvent_environment ((step_cons hin).symm.trans h)

/-- Settles O33: the shape holds of the empty output, and every step keeps it. -/
theorem outputStaysOnePongPerPing : Obligations.OutputStaysOnePongPerPing :=
  ⟨rfl, fun _ _ => stepClosed_outputShape.step⟩

/-- Settles O35: the step is the byte's, in time. -/
theorem deadlineIsNeverMoved : Obligations.DeadlineIsNeverMoved := by
  intro b n es s t hin hst hnow h
  rw [step_cons hin] at h
  exact rxByte_deadline (s := { s with input := es, now := n }) hst hnow h

/-- Settles O36: the event's check discards the frame, which is then what it finds; and a frame that its bytes start from IDLE
has the deadline of this event. -/
theorem partialFrameIsGoneAfterItsDeadline : Obligations.PartialFrameIsGoneAfterItsDeadline := by
  intro e n es s hin hevent hst hreached
  have htime : e.time = some n := by
    obtain ⟨b, rfl⟩ | ⟨bs, rfl⟩ | rfl := hevent
    all_goals rfl
  let v : State := { s with input := es, now := n }
  have hstep : step s = rxBytes e.bytes (v.discard .truncated) := by
    rw [step_of_time hin htime]
    exact congrArg _ (checkDeadline_of_expired (s := v) hst hreached)
  refine ⟨?_, ?_, fun t ht => ?_⟩
  · rw [hstep, step_of_time (s := { s with st := .idle, buf := [], ghost := _ }) hin htime]
    exact congrArg _ (checkDeadline_of_idle rfl).symm
  · rintro (rfl | rfl)
    · exact ⟨_, hstep, rfl⟩
    · exact ⟨_, hstep, rfl⟩
  · rw [hstep] at ht
    obtain ⟨hcfg, hnow, -⟩ := rxBytes_environment ht
    have hnew := byteClosed_startedNow.rxBytes (.inl rfl) ht
    rw [hcfg, hnow] at hnew
    exact hnew

/-- Settles O37: the step is the byte's, after its sample. -/
theorem atMostOneDiscardPerByte : Obligations.AtMostOneDiscardPerByte := by
  intro b n es s t hin h
  rw [step_cons hin] at h
  exact rxByte_discards (s := { s with input := es, now := n }) h

/-- Settles O38: an event does the same with another log, and waiting keeps it. -/
theorem ghostLogIsNeverRead : Obligations.GhostLogIsNeverRead := by
  intro g s
  by_cases hin : s.input = []
  · rw [step_nil hin, step_nil (s := { s with ghost := g }) hin]
    exact ⟨fun t ht => ⟨g, by cases ht; rfl⟩, fun f hf => by cases hf⟩
  · obtain ⟨e, es, hin⟩ := List.exists_cons_of_ne_nil hin
    rw [step_cons hin, step_cons (s := { s with ghost := g }) hin]
    exact runEvent_setGhost e { s with input := es } g

/-- Settles O46: the second header byte discards, and the bytes after it are received where that has led. -/
theorem bytesAfterAnOversizedHeaderAreNewHeaders : Obligations.BytesAfterAnOversizedHeaderAreNewHeaders := by
  intro hi lo rest n es s hst hT hbig
  rw [← lengthOf_toNat] at hbig
  rw [step_chunk_oversize hst hT hbig, discard_eq, State.heldHeader, ← hst]

/-- Settles O52: the rows that end a frame empty `buf`, and no step fills it outside ACCUM. -/
theorem discardedBytesAreAbsent : Obligations.DiscardedBytesAreAbsent := by
  constructor
  · intro i s t h hends
    simp only [← lengthOf_toNat] at hends
    obtain ⟨hst, hbuf⟩ := (execTo_of_exec h).ended hends
    exact ⟨hst, fun a => by rw [hbuf]; rfl⟩
  · intro s t hs h hst a
    rw [stepClosed_absent.step hs h hst]
    rfl

/-- Settles O17: the state the statement describes is the one after the check, and a byte decodes to its class. -/
theorem rxStepRunsTheDecodedByte : Obligations.RxStepRunsTheDecodedByte := by
  intro b n es s u hin hu
  let v : State := { s with input := es, now := n }
  have hcheck : v.checkDeadline = u := by
    rw [hu]
    split
    · rename_i hexpired
      exact checkDeadline_of_expired (s := v) hexpired.1 hexpired.2
    · rename_i hquiet
      exact if_neg (mt expired_iff.1 hquiet)
  refine ⟨decodeByte u.st b, rfl, ?_⟩
  rw [step_cons hin, ← hcheck]
  rfl

/-- Settles O18: the step is a byte after the deadline. -/
theorem lateByteStartsAFreshFrame : Obligations.LateByteStartsAFreshFrame := by
  intro b n es s hin hst hreached
  rw [step_cons hin]
  exact rxByte_expired (s := { s with input := es, now := n }) b hst hreached

/-- Settles O20: both are the check at their time. -/
theorem emptyChunkIsATick : Obligations.EmptyChunkIsATick := fun _ _ _ => rfl

/-- Settles O23: RESET writes these registers to fixed values, so a second one writes nothing new. -/
theorem resetEventStartsEmpty : Obligations.ResetEventStartsEmpty := fun _ _ => ⟨rfl, rfl⟩

/-- Settles O24: the reset state is in IDLE, where a byte is a first length byte. -/
theorem resetStateIsReadyForAFrame : Obligations.ResetStateIsReadyForAFrame :=
  ⟨rfl, fun _ _ _ => ⟨rfl, rfl, _, rfl, rfl, rfl, rfl, rfl⟩⟩

/-- Settles O25: with no event pending a step answers the state itself. -/
theorem waitingChangesNothing : Obligations.WaitingChangesNothing := fun _ => step_nil

end Sys2Proof.Proofs
end

section
/-! PROOFS of the invariant (spec/10_state.md sections 1, 3 and 8, spec/45_engine_operations.md R206): every byte in its state
keeps it and is handled, so every event is and does; and from a state that meets it, a state with the same meaning does the
same. The statements about one step from a state of a run are settled from these. -/

namespace Sys2Proof.Machine

/-! ## The invariant, operation by operation -/

/-- In IDLE the invariant asks for legal parameters and an empty buffer only. -/
theorem inv_of_idle {s : State} (hv : s.cfg.Valid) (hst : s.st = .idle) (hbuf : s.buf = []) : s.Inv where
  valid := hv
  bufWf := by rw [hbuf]; exact List.Pairwise.nil
  bufBound := by simp [hbuf]
  lenPos := by simp [hst]
  lenMax := by simp [hst]
  counting := by simp [hst]
  buffered := by simp [hst]
  unwritten := by simp [hst]
  discarded := fun _ => hbuf
  ahead := fun h => absurd hst h

section
variable {s : State}

theorem State.Inv.discard (h : s.Inv) (c : Cause) : (s.discard c).Inv := inv_of_idle h.valid rfl rfl

theorem inv_completeFrame (hv : s.cfg.Valid) (p : List Byte) : (s.completeFrame p).Inv :=
  inv_of_idle (by rwa [completeFrame_cfg]) (completeFrame_st s p) (completeFrame_buf s p)

/-- The first length byte arms a deadline that is ahead, as `T_REASM >= 1`. -/
theorem State.Inv.heldHeader (h : s.Inv) (hst : s.st = .idle) (b : Byte) : (s.heldHeader b).Inv where
  valid := h.valid
  bufWf := h.bufWf
  bufBound := h.bufBound
  lenPos := nofun
  lenMax := nofun
  counting := nofun
  buffered := nofun
  unwritten := nofun
  discarded := fun _ => h.discarded (by rw [hst]; decide)
  ahead := fun _ => Nat.lt_add_of_pos_right h.valid.2.2

/-- Accumulation starts with `count = 0` and the empty buffer of HDR. -/
theorem State.Inv.startAccum (h : s.Inv) (hst : s.st = .hdr) {len : Half} (hpos : 1 ≤ len.toNat)
    (hfit : len.toNat ≤ s.cfg.maxFrameLen) : (s.startAccum len).Inv where
  valid := h.valid
  bufWf := h.bufWf
  bufBound := h.bufBound
  lenPos := fun _ => hpos
  lenMax := fun _ => hfit
  counting := fun _ => hpos
  buffered := fun _ a ha => absurd ha (Nat.not_lt_zero a)
  unwritten := fun _ c hc => by
    have hbuf : s.buf = [] := h.discarded (by rw [hst]; decide)
    rw [State.startAccum_buf, hbuf] at hc
    cases hc
  discarded := fun hne => absurd rfl hne
  ahead := fun _ => h.ahead (by rw [hst]; decide)

/-- In ACCUM the increment of `count` does not wrap (10_state.md R27). -/
theorem State.Inv.count_succ (h : s.Inv) (hst : s.st = .accum) : (s.count + 1).toNat = s.count.toNat + 1 :=
  count_succ_toNat (h.counting hst)

theorem State.Inv.count_lt_max (h : s.Inv) (hst : s.st = .accum) : s.count.toNat < s.cfg.maxFrameLen :=
  (h.counting hst).trans_le (h.lenMax hst)

/-- A payload byte that is not the last is stored right behind the bytes held. -/
theorem State.Inv.stored (h : s.Inv) (hst : s.st = .accum) (hmid : s.count + 1 ≠ s.expectedLen) (b : Byte) :
    (s.stored b).Inv where
  valid := h.valid
  bufWf := Memory.wf_write _ b h.bufWf
  bufBound := Memory.bound_write b (h.count_lt_max hst) h.bufBound
  lenPos := h.lenPos
  lenMax := h.lenMax
  counting := fun _ => by
    have hlt := h.counting hst
    have hne : s.count.toNat + 1 ≠ s.expectedLen.toNat := fun he =>
      hmid (BitVec.eq_of_toNat_eq ((h.count_succ hst).trans he))
    rw [stored_count, h.count_succ hst]
    exact Nat.lt_of_le_of_ne hlt hne
  buffered := fun _ a ha => by
    rw [stored_count, h.count_succ hst] at ha
    rw [stored_buf, Memory.read_write]
    split
    · rfl
    · exact h.buffered hst a (by omega)
  unwritten := fun _ c hc => by
    rw [stored_count, h.count_succ hst]
    exact Memory.bound_write b (Nat.lt_succ_self _) (fun d hd => Nat.lt_succ_of_lt (h.unwritten hst d hd)) c hc
  discarded := fun hne => absurd hst hne
  ahead := h.ahead

/-- The bytes held in ACCUM can be read (10_state.md R29). -/
theorem State.Inv.exists_held (h : s.Inv) (hst : s.st = .accum) : ∃ p, s.buf.readRange 0 s.count.toNat = some p :=
  Memory.exists_readRange_iff.2 (h.buffered hst)

/-! ## The invariant, event by event -/

/-- A byte in its state keeps the invariant. -/
theorem State.Inv.exec {t : State} {b : Byte} (h : s.Inv) (hexec : exec (decodeByte s.st b) s = .next t) : t.Inv := by
  have hto := execTo_of_exec hexec
  cases hst : s.st with
  | idle =>
    rw [hst] at hto
    cases hto
    exact h.heldHeader hst b
  | hdr =>
    rw [hst] at hto
    cases hto with
    | tooLong => exact h.discard _
    | zeroLength => exact inv_completeFrame h.valid _
    | started _ hpos hfit => exact h.startAccum hst hpos hfit
  | accum =>
    rw [hst] at hto
    cases hto with
    | stored _ hmid => exact h.stored hst hmid b
    | last _ p => exact inv_completeFrame (s := s.stored b) h.valid p

/-- A byte in its state is handled: its store is inside the buffer, and a payload it completes has no hole. -/
theorem State.Inv.exec_next (h : s.Inv) (b : Byte) : ∃ t, Machine.exec (decodeByte s.st b) s = .next t ∧ t.Inv := by
  obtain ⟨t, ht⟩ | ⟨c, f, hpayload, hf⟩ := exec_next_or_payload_fault (decodeByte s.st b) s
  · exact ⟨t, ht, h.exec ht⟩
  · have hst : s.st = .accum := by
      cases hst : s.st with
      | accum => rfl
      | idle | hdr => rw [hst] at hpayload; cases hpayload
    rw [hpayload] at hf
    obtain hfull | ⟨hlast, a, ha, hne, hread⟩ := (execPayload_fault_iff c s).1 ⟨f, hf⟩
    · exact absurd (h.count_lt_max hst) (Nat.not_lt.2 hfull)
    · have hlen : s.count.toNat + 1 = s.expectedLen.toNat := by rw [← hlast, h.count_succ hst]
      have hne : a ≠ s.count.toNat := hne
      have hheld := h.buffered hst a (by omega)
      rw [hread] at hheld
      cases hheld

/-- Where the invariant holds the deadline check finds nothing. -/
theorem State.Inv.inTime (h : s.Inv) : s.st = .idle ∨ s.now < s.deadline := or_iff_not_imp_left.2 h.ahead

/-- Whatever the clock reads and whatever is pending, the deadline check restores the invariant. -/
theorem State.Inv.check (h : s.Inv) (es : List Event) (n : Nat) :
    ({ s with input := es, now := n } : State).checkDeadline.Inv := by
  obtain ⟨he, hahead⟩ | ⟨he, -, -⟩ := checkDeadline_cases { s with input := es, now := n }
  · rw [he]
    obtain ⟨hvalid, hwf, hbound, hpos, hmax, hcounting, hbuffered, hunwritten, hdiscarded, -⟩ := h
    exact ⟨hvalid, hwf, hbound, hpos, hmax, hcounting, hbuffered, hunwritten, hdiscarded, hahead.resolve_left⟩
  · rw [he]
    exact inv_of_idle h.valid rfl rfl

theorem State.Inv.rxBytes (h : s.Inv) (bs : List Byte) : ∃ t, rxBytes bs s = .next t ∧ t.Inv := by
  induction bs generalizing s with
  | nil => exact ⟨s, rfl, h⟩
  | cons b bs ih =>
    obtain ⟨u, hu, hinv⟩ := h.exec_next b
    obtain ⟨t, ht, hinv'⟩ := ih hinv
    exact ⟨t, andThen_eq_next.2 ⟨u, (rxByte_of_inTime b h.inTime).trans hu, ht⟩, hinv'⟩

/-- Every event is handled and keeps the invariant (45_engine_operations.md R206), with any events pending behind it. -/
theorem State.Inv.runEvent (h : s.Inv) (e : Event) (es : List Event) :
    ∃ t, runEvent e { s with input := es } = .next t ∧ t.Inv := by
  cases htime : e.time with
  | none =>
    cases Event.time_eq_none htime
    exact ⟨_, rfl, inv_of_idle h.valid rfl rfl⟩
  | some n =>
    rw [runEvent_of_time htime]
    exact (h.check es n).rxBytes e.bytes

theorem State.Inv.step (h : s.Inv) : ∃ t, step s = .next t ∧ t.Inv := by
  cases hin : s.input with
  | nil => exact ⟨s, step_nil hin, h⟩
  | cons e es => rw [step_cons hin]; exact h.runEvent e es

end

/-! ## States with the same meaning -/

/-- Between `s` and `t` the same bytes were appended to `tx` as between `s'` and `t'`. -/
def appendAlike (s t s' t' : State) : Prop := ∃ out, t.tx = s.tx ++ out ∧ t'.tx = s'.tx ++ out

theorem appendAlike_of_silent {s t s' t' : State} (h : t.tx = s.tx) (h' : t'.tx = s'.tx) : appendAlike s t s' t' :=
  ⟨[], by rw [h, List.append_nil], by rw [h', List.append_nil]⟩

theorem appendAlike.trans {s t u s' t' u' : State} (h1 : appendAlike s t s' t') (h2 : appendAlike t u t' u') :
    appendAlike s u s' u' := by
  obtain ⟨out, ht, ht'⟩ := h1
  obtain ⟨more, hu, hu'⟩ := h2
  exact ⟨out ++ more, by rw [hu, ht, List.append_assoc], by rw [hu', ht', List.append_assoc]⟩

theorem sameOutput.trans {s t u s' t' u' : State} (h1 : sameOutput s t s' t') (h2 : sameOutput t u t' u') :
    sameOutput s u s' u' := by
  obtain h2 | hsame := h2
  · obtain h1 | hsame := h1
    · exact .inl (appendAlike.trans h1 h2)
    · obtain ⟨out, hu, hu'⟩ := h2
      exact .inr (by rw [hu, hu', hsame])
  · exact .inr hsame

/-- Equal outputs stay equal when the same bytes go out. -/
theorem sameOutput.tx_eq {s t s' t' : State} (h : sameOutput s t s' t') (htx : s.tx = s'.tx) : t.tx = t'.tx := by
  obtain ⟨out, ht, ht'⟩ | hsame := h
  · rw [ht, ht', htx]
  · exact hsame

/-- In IDLE the parameters alone have a meaning (10_state.md section 1). -/
theorem sameMeaning_of_idle {s s' : State} (hcfg : s.cfg = s'.cfg) (hst : s.st = .idle) (hst' : s'.st = .idle) :
    s.SameMeaning s' where
  cfg := hcfg
  st := hst.trans hst'.symm
  lenHi := by simp [hst]
  deadline := fun h => absurd hst h
  expectedLen := by simp [hst]
  count := by simp [hst]
  bytes := by simp [hst]

section
variable {s s' : State}

theorem State.SameMeaning.completeFrame (h : s.SameMeaning s') (p : List Byte) :
    (s.completeFrame p).SameMeaning (s'.completeFrame p) ∧ appendAlike s (s.completeFrame p) s' (s'.completeFrame p) := by
  refine ⟨sameMeaning_of_idle (by simp [h.cfg]) (completeFrame_st s p) (completeFrame_st s' p), responseTo s.cfg p, ?_, ?_⟩
  · exact completeFrame_tx s p
  · rw [h.cfg]; exact completeFrame_tx s' p

theorem State.SameMeaning.heldHeader (h : s.SameMeaning s') (hnow : s.now = s'.now) (b : Byte) :
    (s.heldHeader b).SameMeaning (s'.heldHeader b) where
  cfg := h.cfg
  st := rfl
  lenHi := fun _ => rfl
  deadline := fun _ => by rw [heldHeader_deadline, heldHeader_deadline, hnow, h.cfg]
  expectedLen := nofun
  count := nofun
  bytes := nofun

theorem State.SameMeaning.startAccum (h : s.SameMeaning s') (hst : s.st = .hdr) (len : Half) :
    (s.startAccum len).SameMeaning (s'.startAccum len) where
  cfg := h.cfg
  st := rfl
  lenHi := nofun
  deadline := fun _ => h.deadline (by rw [hst]; decide)
  expectedLen := fun _ => rfl
  count := fun _ => rfl
  bytes := fun _ a ha => absurd ha (Nat.not_lt_zero a)

theorem State.SameMeaning.stored (hs : s.Inv) (h : s.SameMeaning s') (hst : s.st = .accum) (b : Byte) :
    (s.stored b).SameMeaning (s'.stored b) where
  cfg := h.cfg
  st := h.st
  lenHi := h.lenHi
  deadline := h.deadline
  expectedLen := h.expectedLen
  count := fun _ => by rw [stored_count, stored_count, h.count hst]
  bytes := fun _ a ha => by
    rw [stored_count, hs.count_succ hst] at ha
    rw [stored_buf, stored_buf, ← h.count hst, Memory.read_write, Memory.read_write]
    split
    · rfl
    · exact h.bytes hst a (by omega)

/-- The second length byte does the same in both: the length is formed from `len_hi` (10_state.md R24). -/
theorem State.SameMeaning.execHdrLo (h : s.SameMeaning s') (hst : s.st = .hdr) (b : Byte) :
    ∃ t t', exec (.hdrLo b) s = .next t ∧ exec (.hdrLo b) s' = .next t' ∧ t.SameMeaning t' ∧ appendAlike s t s' t' := by
  have hhi : s'.lenHi = s.lenHi := (h.lenHi hst).symm
  obtain ⟨hbig, he⟩ | ⟨hzero, he⟩ | ⟨hpos, hfit, he⟩ := execHdrLo_cases s b
  · exact ⟨_, _, he, execHdrLo_oversize (by rwa [hhi, ← h.cfg]), sameMeaning_of_idle h.cfg rfl rfl,
      appendAlike_of_silent rfl rfl⟩
  · exact ⟨_, _, he, execHdrLo_zero (by rwa [hhi]), h.completeFrame []⟩
  · exact ⟨_, _, he, execHdrLo_start (by rwa [hhi]) (by rwa [hhi, ← h.cfg]), by rw [hhi]; exact h.startAccum hst _,
      appendAlike_of_silent rfl rfl⟩

/-- A payload byte does the same in both: a payload it completes is read from the bytes below `count` (R133). -/
theorem State.SameMeaning.execPayload (hs : s.Inv) (h : s.SameMeaning s') (hst : s.st = .accum) (b : Byte) :
    ∃ t t', exec (.payload b) s = .next t ∧ exec (.payload b) s' = .next t' ∧ t.SameMeaning t' ∧
      appendAlike s t s' t' := by
  have hstored := h.stored hs hst b
  have hlt := hs.count_lt_max hst
  have hcount := h.count hst
  have hlt' : s'.count.toNat < s'.cfg.maxFrameLen := by rwa [← hcount, ← h.cfg]
  by_cases hlast : s.count + 1 = s.expectedLen
  · obtain ⟨p, hheld⟩ := hs.exists_held hst
    have hheld' : s'.buf.readRange 0 s'.count.toNat = some p := by
      rw [← hheld, ← hcount]
      exact (Memory.readRange_congr fun a ha => h.bytes hst (0 + a) (by rwa [Nat.zero_add])).symm
    have hlen : s.count.toNat + 1 = s.expectedLen.toNat := by rw [← hs.count_succ hst, hlast]
    have hlen' : s'.count.toNat + 1 = s'.expectedLen.toNat := by rwa [← hcount, ← h.expectedLen hst]
    exact ⟨_, _, execPayload_last hlt hlen hheld, execPayload_last hlt' hlen' hheld', hstored.completeFrame _⟩
  · have hmid' : s'.count + 1 ≠ s'.expectedLen := by rwa [← hcount, ← h.expectedLen hst]
    exact ⟨_, _, execPayload_mid hlt hlast, execPayload_mid hlt' hmid', hstored, appendAlike_of_silent rfl rfl⟩

/-- A byte in its state does the same in both. -/
theorem State.SameMeaning.exec (hs : s.Inv) (h : s.SameMeaning s') (hnow : s.now = s'.now) (b : Byte) :
    ∃ t t', exec (decodeByte s.st b) s = .next t ∧ exec (decodeByte s'.st b) s' = .next t' ∧ t.SameMeaning t' ∧
      appendAlike s t s' t' := by
  rw [← h.st]
  cases hst : s.st with
  | idle => exact ⟨_, _, rfl, rfl, h.heldHeader hnow b, appendAlike_of_silent rfl rfl⟩
  | hdr => exact h.execHdrLo hst b
  | accum => exact h.execPayload hs hst b

/-- The check reads `deadline` only where it means something. -/
theorem State.SameMeaning.checkDeadline (h : s.SameMeaning s') (hnow : s.now = s'.now) :
    s.checkDeadline.SameMeaning s'.checkDeadline := by
  by_cases hst : s.st = .idle
  · rwa [checkDeadline_of_idle hst, checkDeadline_of_idle (h.st ▸ hst)]
  · have hdl := h.deadline hst
    rcases Nat.lt_or_ge s.now s.deadline with hahead | hreached
    · rwa [checkDeadline_of_lt hahead, checkDeadline_of_lt (by rwa [← hnow, ← hdl])]
    · rw [checkDeadline_of_expired hst hreached, checkDeadline_of_expired (h.st ▸ hst) (by rwa [← hnow, ← hdl])]
      exact sameMeaning_of_idle h.cfg rfl rfl

/-- What is pending and what the clock reads is no register of the block (10_state.md R32). -/
theorem State.SameMeaning.setEvent (h : s.SameMeaning s') (es es' : List Event) (n n' : Nat) :
    State.SameMeaning { s with input := es, now := n } { s' with input := es', now := n' } :=
  ⟨h.cfg, h.st, h.lenHi, h.deadline, h.expectedLen, h.count, h.bytes⟩

/-- Bytes received together do the same in both. -/
theorem State.SameMeaning.rxBytes (hs : s.Inv) (h : s.SameMeaning s') (hnow : s.now = s'.now) (bs : List Byte) :
    ∃ t t', rxBytes bs s = .next t ∧ rxBytes bs s' = .next t' ∧ t.SameMeaning t' ∧ appendAlike s t s' t' := by
  induction bs generalizing s s' with
  | nil => exact ⟨s, s', rfl, rfl, h, appendAlike_of_silent rfl rfl⟩
  | cons b bs ih =>
    have hin' : s'.st = .idle ∨ s'.now < s'.deadline := by
      by_cases hst : s.st = .idle
      · exact .inl (h.st ▸ hst)
      · exact .inr (by rw [← hnow, ← h.deadline hst]; exact hs.ahead hst)
    obtain ⟨u, u', hu, hu', hsame, hout⟩ := h.exec hs hnow b
    have hnow' : u.now = u'.now := by rw [(exec_environment hu).2.1, (exec_environment hu').2.1, hnow]
    obtain ⟨t, t', ht, ht', hsame', hout'⟩ := ih (hs.exec hu) hsame hnow'
    have hbyte : rxByte b s = .next u := (rxByte_of_inTime b hs.inTime).trans hu
    have hbyte' : rxByte b s' = .next u' := (rxByte_of_inTime b hin').trans hu'
    exact ⟨t, t', andThen_eq_next.2 ⟨u, hbyte, ht⟩, andThen_eq_next.2 ⟨u', hbyte', ht'⟩, hsame', hout.trans hout'⟩

/-! ## States that are the same from a time on -/

/-- No event at time `n` or later tells the two states apart: once their deadlines have been checked they have the same meaning.
An expired frame that a TICK has not discarded yet makes no difference (44_recovery_policy.md R192). -/
def State.SameFrom (s : State) (n : Nat) (s' : State) : Prop :=
  ∀ m, n ≤ m → ∀ es es', State.SameMeaning ({ s with input := es, now := m } : State).checkDeadline
    ({ s' with input := es', now := m } : State).checkDeadline

theorem State.SameMeaning.sameFrom (h : s.SameMeaning s') (n : Nat) : s.SameFrom n s' :=
  fun m _ es es' => (h.setEvent es es' m m).checkDeadline rfl

/-- Two states in which no frame is in flight, or only one whose deadline is reached, are the same from then on. -/
theorem sameFrom_of_fresh {n : Nat} (hcfg : s.cfg = s'.cfg) (h : s.st = .idle ∨ s.deadline ≤ n)
    (h' : s'.st = .idle ∨ s'.deadline ≤ n) : s.SameFrom n s' := fun m hm es es' =>
  sameMeaning_of_idle (by simpa using hcfg)
    (checkDeadline_st_idle (s := { s with input := es, now := m }) (h.imp_right (le_trans · hm)))
    (checkDeadline_st_idle (s := { s' with input := es', now := m }) (h'.imp_right (le_trans · hm)))

/-- An event does the same in both, with any events pending behind it. -/
theorem State.SameFrom.runEvent {n : Nat} (hs : s.Inv) (h : s.SameFrom n s') {e : Event}
    (hn : ∀ m, e.time = some m → n ≤ m) (es es' : List Event) :
    ∃ t t', runEvent e { s with input := es } = .next t ∧ runEvent e { s' with input := es' } = .next t' ∧
      t.SameMeaning t' ∧ sameOutput s t s' t' := by
  cases htime : e.time with
  | none =>
    cases Event.time_eq_none htime
    have hcfg : s.cfg = s'.cfg := by simpa using (h n le_rfl [] []).cfg
    exact ⟨_, _, rfl, rfl, sameMeaning_of_idle hcfg rfl rfl, .inr rfl⟩
  | some m =>
    have hsame := h m (hn m htime) es es'
    obtain ⟨t, t', ht, ht', hsame', out, hout, hout'⟩ := hsame.rxBytes (hs.check es m) (by simp) e.bytes
    rw [runEvent_of_time htime, runEvent_of_time htime]
    rw [checkDeadline_tx] at hout hout'
    exact ⟨t, t', ht, ht', hsame', .inl ⟨out, hout, hout'⟩⟩

theorem State.SameMeaning.runEvent (hs : s.Inv) (h : s.SameMeaning s') (e : Event) (es es' : List Event) :
    ∃ t t', runEvent e { s with input := es } = .next t ∧ runEvent e { s' with input := es' } = .next t' ∧
      t.SameMeaning t' ∧ sameOutput s t s' t' :=
  (h.sameFrom 0).runEvent hs (fun m _ => Nat.zero_le m) es es'

end

end Sys2Proof.Machine

namespace Sys2Proof.Proofs

open Sys2Proof.Machine

/-- Settles O31: the next state is the one `State.Inv.step` gives, which meets the invariant. -/
theorem everyStepKeepsTheInvariant : Obligations.EveryStepKeepsTheInvariant := by
  intro s t hs h
  obtain ⟨u, hu, hinv⟩ := hs.step
  cases hu.symm.trans h
  exact hinv

/-- Settles O39: with nothing pending both states wait; otherwise both run the same event. -/
theorem unspecifiedRegistersAreNeverRead : Obligations.UnspecifiedRegistersAreNeverRead := by
  intro s s' hs h hin
  cases hev : s.input with
  | nil => exact ⟨s, s', step_nil hev, step_nil (hin ▸ hev), h, hin, .inl (appendAlike_of_silent rfl rfl)⟩
  | cons e es =>
    obtain ⟨t, t', ht, ht', hsame, hout⟩ := h.runEvent hs e es es
    have hinput : t.input = t'.input := (runEvent_environment ht).2.trans (runEvent_environment ht').2.symm
    exact ⟨t, t', (step_cons hev).trans ht, (step_cons (hin ▸ hev)).trans ht', hsame, hinput, hout⟩

/-- Settles O32: `State.Inv.step` gives a next state. -/
theorem everyEventIsHandled : Obligations.EveryEventIsHandled := fun _ hs => hs.step.imp fun _ h => h.1

/-- Settles O30: the reset state is in IDLE with an empty buffer. -/
theorem resetMeetsTheInvariant : Obligations.ResetMeetsTheInvariant :=
  ⟨inv_of_idle (by decide) rfl rfl, fun _ hv => inv_of_idle hv rfl rfl⟩

/-- Settles O34: `count` is below `expected_len`, which is at most `MAX_FRAME_LEN`. -/
theorem storeIndexStaysInsideTheBuffer : Obligations.StoreIndexStaysInsideTheBuffer := by
  intro s hs hst
  have hsucc := hs.count_succ hst
  exact ⟨hs.count_lt_max hst, hsucc, hsucc.trans_le (hs.counting hst)⟩

end Sys2Proof.Proofs
end

section
/-! PROOFS of runs (spec/45_engine_operations.md section 2, spec/44_recovery_policy.md section 2, spec/70_reset_and_hazards.md
section 3): fragmentation and silence from what of a frame is still missing; recovery and TICKs from the states that no later
event tells apart. -/

namespace Sys2Proof.Machine

/-! ## Part of a frame -/

section
variable {s₀ s : State} {t0 : Nat} {p r : List Byte}

/-- While bytes of the frame are missing nothing has been put out, and the block is in IDLE exactly before the first one. -/
theorem State.Awaits.incomplete (h : s₀.Awaits t0 p s r) (hne : r ≠ []) :
    s₀.Extends s [] [] ∧ (s.st = .idle ↔ r = encodeFrame p) := by
  cases h with
  | start hst hout => exact ⟨hout, iff_of_true hst rfl⟩
  | header hst _ _ hout =>
    refine ⟨hout, iff_of_false (by rw [hst]; decide) fun he => ?_⟩
    have hlen := congrArg List.length he
    simp at hlen
    omega
  | @payload q _ hq hacc _ _ hout =>
    refine ⟨hout, iff_of_false (by rw [hacc.accum]; decide) fun he => ?_⟩
    have hlen := congrArg List.length (he ▸ hq)
    simp at hlen
    omega
  | done => exact absurd rfl hne

end

/-- Events in time that bring a proper first part of an accepted frame to IDLE leave the rest missing. -/
theorem runAll_part {s : State} {t0 : Nat} {p more : List Byte} {evs : List Event} (later : List Event) (hs : s.Inv)
    (hst : s.st = .idle) (hp : p.length ≤ s.cfg.maxFrameLen) (hmore : more ≠ [])
    (hbytes : encodeFrame p = bytesOf evs ++ more) (hevs : ∀ e ∈ evs, e.within t0 (t0 + s.cfg.tReasm) = true) :
    ∃ t, runAll (evs ++ later) s = runAll later t ∧ s.Extends t [] [] ∧ (t.st = .idle ↔ bytesOf evs = []) := by
  obtain ⟨t, hrun, hwait⟩ := runAll_awaits later hs.valid hp hevs (hbytes ▸ awaits_encodeFrame hst)
  obtain ⟨hout, hidle⟩ := hwait.incomplete hmore
  exact ⟨t, hrun, hout, by rw [hidle, hbytes, List.self_eq_append_left]⟩

/-- TICKs put nothing out; they log one discard at most, and that of a frame in flight. -/
theorem runAll_ticks_log {ticks : List Event} (hticks : ∀ e ∈ ticks, e.isTick = true) (s : State) :
    ∃ t, runAll ticks s = .next t ∧ t.tx = s.tx ∧ ((t.st = s.st ∧ t.ghost = s.ghost) ∨
      (s.st ≠ .idle ∧ t.st = .idle ∧ t.ghost = s.ghost ++ [.discard .truncated])) := by
  induction ticks generalizing s with
  | nil => exact ⟨_, runAll_nil s, rfl, .inl ⟨rfl, rfl⟩⟩
  | cons e ticks ih =>
    obtain ⟨htick, hrest⟩ := List.forall_mem_cons.1 hticks
    cases e with
    | tick n =>
      obtain ⟨t, hrun, htx, hlog⟩ := ih hrest ({ s with input := ticks, now := n } : State).checkDeadline
      refine ⟨t, (runAll_cons _ _ s).trans hrun, by simpa using htx, ?_⟩
      obtain ⟨he, -⟩ | ⟨he, hst, -⟩ := checkDeadline_cases { s with input := ticks, now := n }
      · rw [he] at hlog
        exact hlog
      · rw [he] at hlog
        exact .inr ⟨hst, hlog.resolve_right fun h => absurd rfl h.1⟩
    | _ => cases htick

/-! ## A frame in flight whose deadline is its first byte's -/

/-- `s` waits for a proper part of the frame that came first at `t0` in `s₀`, so its deadline is `t0 + T_REASM` exactly. -/
structure State.InFlight (s₀ : State) (t0 : Nat) (p : List Byte) (s : State) (r : List Byte) : Prop where
  awaits : s₀.Awaits t0 p s r
  begun : r.length < (encodeFrame p).length
  deadline : s.deadline = t0 + s₀.cfg.tReasm

section
variable {s₀ s : State} {t0 : Nat} {p r : List Byte}

/-- The first byte of a frame, at `t0`, puts it in flight (44_recovery_policy.md R186). -/
theorem State.InFlight.start {b : Byte} (hv : s₀.cfg.Valid) (hp : p.length ≤ s₀.cfg.maxFrameLen) (hst : s₀.st = .idle)
    (hnow : s₀.now = t0) (hbytes : encodeFrame p = b :: r) :
    ∃ t, rxByte b s₀ = .next t ∧ s₀.InFlight t0 p t r := by
  have hwait : s₀.Awaits t0 p s₀ (b :: r) := hbytes ▸ awaits_encodeFrame hst
  obtain ⟨t, ht, hwait'⟩ := hwait.rxByte hv hp hnow.ge (hnow ▸ Nat.lt_add_of_pos_right hv.2.2)
  refine ⟨t, ht, hwait', hbytes ▸ Nat.lt_succ_self _, ?_⟩
  cases (rxByte_idle b hst).symm.trans ht
  rw [← hnow]

/-- The next byte in time, if it is not the last, leaves the frame in flight and its deadline as it is (D4). -/
theorem State.InFlight.rxByte {b : Byte} (hv : s₀.cfg.Valid) (hp : p.length ≤ s₀.cfg.maxFrameLen)
    (h : s₀.InFlight t0 p s (b :: r)) (hlo : t0 ≤ s.now) (hhi : s.now < t0 + s₀.cfg.tReasm) :
    ∃ t, rxByte b s = .next t ∧ s₀.InFlight t0 p t r := by
  obtain ⟨hwait, hbegun, hdl⟩ := h
  obtain ⟨t, ht, hwait'⟩ := hwait.rxByte hv hp hlo hhi
  have hst : s.st ≠ .idle := fun hidle =>
    Nat.ne_of_lt hbegun (congrArg List.length ((hwait.incomplete (List.cons_ne_nil b r)).2.1 hidle))
  exact ⟨t, ht, hwait', (Nat.lt_succ_self _).trans hbegun, (rxByte_deadline hst (hdl ▸ hhi) ht).trans hdl⟩

theorem State.InFlight.rxBytes {bs : List Byte} (hv : s₀.cfg.Valid) (hp : p.length ≤ s₀.cfg.maxFrameLen)
    (h : s₀.InFlight t0 p s (bs ++ r)) (hlo : t0 ≤ s.now) (hhi : s.now < t0 + s₀.cfg.tReasm) :
    ∃ t, rxBytes bs s = .next t ∧ s₀.InFlight t0 p t r := by
  induction bs generalizing s with
  | nil => exact ⟨s, rfl, h⟩
  | cons b bs ih =>
    obtain ⟨u, hbyte, hu⟩ := h.rxByte hv hp hlo hhi
    obtain ⟨-, hnow, -⟩ := rxByte_environment hbyte
    obtain ⟨t, hbytes, ht⟩ := ih hu (hnow ▸ hlo) (hnow ▸ hhi)
    exact ⟨t, andThen_eq_next.2 ⟨u, hbyte, hbytes⟩, ht⟩

/-- Events in time that bring more bytes of the frame, but not all, leave it in flight. -/
theorem runAll_inFlight {more : List Byte} {evs : List Event} (later : List Event) (hv : s₀.cfg.Valid)
    (hp : p.length ≤ s₀.cfg.maxFrameLen) (hevs : ∀ e ∈ evs, e.within t0 (t0 + s₀.cfg.tReasm) = true)
    (h : s₀.InFlight t0 p s (bytesOf evs ++ more)) :
    ∃ t, runAll (evs ++ later) s = runAll later t ∧ s₀.InFlight t0 p t more := by
  induction evs generalizing s with
  | nil => exact ⟨s, rfl, h⟩
  | cons e evs ih =>
    obtain ⟨he, hevs⟩ := List.forall_mem_cons.1 hevs
    have hbytes : s₀.InFlight t0 p s (e.bytes ++ (bytesOf evs ++ more)) := by
      simpa [bytesOf, List.flatMap_cons] using h
    obtain ⟨n, hlo, hhi, hevent⟩ :=
      runEvent_eq_rxBytes (s := { s with input := evs ++ later }) he (.inr hbytes.deadline.ge)
    have hsampled : s₀.InFlight t0 p { s with input := evs ++ later, now := n } (e.bytes ++ (bytesOf evs ++ more)) :=
      ⟨hbytes.awaits.setEvent _ hhi, hbytes.begun, hbytes.deadline⟩
    obtain ⟨u, hrx, hu⟩ := hsampled.rxBytes hv hp hlo hhi
    obtain ⟨t, hrun, ht⟩ := ih hevs hu
    have hfirst : runEvent e { s with input := evs ++ later } = .next u := hevent.trans hrx
    refine ⟨t, ?_, ht⟩
    rw [List.cons_append, runAll_cons, hfirst, andThen_next, hrun]

end

/-- A first event with bytes, at `t0` in IDLE, and more events in time: together they bring a proper first part of the frame and
leave it in flight. -/
theorem runAll_part_inFlight {s : State} {t0 : Nat} {p more : List Byte} {e : Event} {evs : List Event}
    (later : List Event) (hv : s.cfg.Valid) (hst : s.st = .idle) (hp : p.length ≤ s.cfg.maxFrameLen)
    (hbytes : encodeFrame p = bytesOf (e :: evs) ++ more) (hne : e.bytes ≠ []) (he : e.within t0 (t0 + 1) = true)
    (hevs : ∀ e' ∈ evs, e'.within t0 (t0 + s.cfg.tReasm) = true) :
    ∃ t s₀, runAll (e :: (evs ++ later)) s = runAll later t ∧ State.InFlight s₀ t0 p t more ∧ s₀.cfg = s.cfg ∧
      s₀.tx = s.tx := by
  obtain ⟨n, hlo, hhi, hevent⟩ := runEvent_eq_rxBytes (s := { s with input := evs ++ later }) he (.inl hst)
  obtain rfl : n = t0 := Nat.le_antisymm (Nat.le_of_lt_succ hhi) hlo
  obtain ⟨b, bs, hcons⟩ := List.exists_cons_of_ne_nil hne
  have hsplit : encodeFrame p = b :: (bs ++ (bytesOf evs ++ more)) := by
    rw [hbytes, bytesOf, List.flatMap_cons, hcons, List.append_assoc]; rfl
  let s₀ : State := { s with input := evs ++ later, now := n }
  obtain ⟨v, hbyte, hv'⟩ := State.InFlight.start (s₀ := s₀) hv hp hst rfl hsplit
  have hnow : v.now = n := (rxByte_environment hbyte).2.1
  obtain ⟨u, hrest, hu⟩ := State.InFlight.rxBytes (s₀ := s₀) hv hp hv' hnow.ge (hnow ▸ Nat.lt_add_of_pos_right hv.2.2)
  obtain ⟨t, hrun, ht⟩ := runAll_inFlight (s₀ := s₀) later hv hp hevs hu
  have hfirst : runEvent e { s with input := evs ++ later } = .next u := by
    rw [hevent, hcons]
    exact andThen_eq_next.2 ⟨v, hbyte, hrest⟩
  refine ⟨t, s₀, ?_, ht, rfl, rfl⟩
  rw [runAll_cons, hfirst, andThen_next, hrun]

/-! ## Runs from states that are the same from a time on -/

section
variable {s s' : State}

theorem State.SameMeaning.symm (h : s.SameMeaning s') : s'.SameMeaning s where
  cfg := h.cfg.symm
  st := h.st.symm
  lenHi := fun hst => (h.lenHi (h.st.trans hst)).symm
  deadline := fun hst => (h.deadline (h.st ▸ hst)).symm
  expectedLen := fun hst => (h.expectedLen (h.st.trans hst)).symm
  count := fun hst => (h.count (h.st.trans hst)).symm
  bytes := fun hst a ha => (h.bytes (h.st.trans hst) a (by rwa [h.count (h.st.trans hst)])).symm

theorem sameOutput.symm {t t' : State} (h : sameOutput s t s' t') : sameOutput s' t' s t :=
  h.imp (fun ⟨out, ht, ht'⟩ => ⟨out, ht', ht⟩) Eq.symm

/-- A run does the same from both states (10_state.md section 8). -/
theorem State.SameMeaning.runAll (hs : s.Inv) (h : s.SameMeaning s') (evs : List Event) :
    ∃ t t', runAll evs s = .next t ∧ runAll evs s' = .next t' ∧ t.SameMeaning t' ∧ sameOutput s t s' t' := by
  induction evs generalizing s s' with
  | nil =>
    exact ⟨_, _, rfl, rfl, h.setEvent [] [] s.now s'.now, .inl (appendAlike_of_silent rfl rfl)⟩
  | cons e es ih =>
    obtain ⟨u, u', hu, hu', hsame, hout⟩ := h.runEvent hs e es es
    obtain ⟨v, hv, hinv⟩ := hs.runEvent e es
    cases hu.symm.trans hv
    obtain ⟨t, t', ht, ht', hsame', hout'⟩ := ih hinv hsame
    refine ⟨t, t', ?_, ?_, hsame', hout.trans hout'⟩
    · rw [runAll_cons, hu, andThen_next, ht]
    · rw [runAll_cons, hu', andThen_next, ht']

/-- A run whose first event carries a time does the same from states that are the same from that time on. -/
theorem State.SameFrom.runAll_cons {n : Nat} (hs : s.Inv) (h : s.SameFrom n s') {e : Event}
    (hn : ∀ m, e.time = some m → n ≤ m) (es : List Event) :
    ∃ t t', runAll (e :: es) s = .next t ∧ runAll (e :: es) s' = .next t' ∧ t.SameMeaning t' ∧ sameOutput s t s' t' := by
  obtain ⟨u, u', hu, hu', hsame, hout⟩ := h.runEvent hs hn es es
  obtain ⟨v, hv, hinv⟩ := hs.runEvent e es
  cases hu.symm.trans hv
  obtain ⟨t, t', ht, ht', hsame', hout'⟩ := hsame.runAll hinv es
  refine ⟨t, t', ?_, ?_, hsame', hout.trans hout'⟩
  · rw [Machine.runAll_cons, hu, andThen_next, ht]
  · rw [Machine.runAll_cons, hu', andThen_next, ht']

/-! ## Runs without their TICKs -/

/-- A check at `m` does not change what a check at `k`, no earlier, finds. -/
theorem checkDeadline_later (s : State) (es es' : List Event) {m k : Nat} (hmk : m ≤ k) :
    ({ ({ s with input := es, now := m } : State).checkDeadline with input := es', now := k } : State).checkDeadline =
      ({ s with input := es', now := k } : State).checkDeadline := by
  obtain ⟨he, -⟩ | ⟨he, hst, hreached⟩ := checkDeadline_cases { s with input := es, now := m }
  · rw [he]
  · rw [he, checkDeadline_of_expired (s := { s with input := es', now := k }) hst (hreached.trans hmk)]
    exact checkDeadline_of_idle rfl

/-- A TICK on one side alone makes no difference to any later event (44_recovery_policy.md R192). -/
theorem State.SameFrom.tick {n m : Nat} (h : s.SameFrom n s') (hm : n ≤ m) (es : List Event) :
    ({ s with input := es, now := m } : State).checkDeadline.SameFrom m s' := fun k hk es₁ es₂ => by
  rw [checkDeadline_later s es es₁ hk]
  exact h k (hm.trans hk) es₁ es₂

/-- A monotonic clock reads no less in an event than before it (70_reset_and_hazards.md R255). -/
theorem monotoneFrom_cons {n : Nat} {e : Event} {es : List Event} (h : monotoneFrom n (e :: es)) :
    (∀ m, e.time = some m → n ≤ m) ∧ ∃ m, monotoneFrom m es := by
  cases e with
  | reset => exact ⟨nofun, n, h⟩
  | rx b m | chunk bs m | tick m => exact ⟨fun k hk => by cases hk; exact h.1, m, h.2⟩

theorem Event.isTick_cases (e : Event) : (∃ m, e = .tick m) ∨ e.isTick = false := by
  cases e with
  | tick m => exact .inl ⟨m, rfl⟩
  | _ => exact .inr rfl

/-- A run through events and the run through those that are no TICK lead to states with the same output that are the same from
the last event's time on. -/
theorem runAll_withoutTicks {n : Nat} {evs : List Event} (later later' : List Event) (hs : s.Inv) (h : s.SameFrom n s')
    (htx : s.tx = s'.tx) (hmono : monotoneFrom n (evs ++ later)) :
    ∃ m t t', runAll (evs ++ later) s = runAll later t ∧
      runAll (evs.filter (fun e => !e.isTick) ++ later') s' = runAll later' t' ∧
      t.Inv ∧ t.SameFrom m t' ∧ t.tx = t'.tx ∧ monotoneFrom m later := by
  induction evs generalizing n s s' with
  | nil => exact ⟨n, s, s', rfl, rfl, hs, h, htx, hmono⟩
  | cons e evs ih =>
    obtain ⟨m, rfl⟩ | hkept := e.isTick_cases
    · obtain ⟨hm, hmono⟩ := hmono
      have htx' : ({ s with input := evs ++ later, now := m } : State).checkDeadline.tx = s'.tx := by simpa using htx
      obtain ⟨k, t, t', ht, ht', hrest⟩ := ih (hs.check (evs ++ later) m) (h.tick hm (evs ++ later)) htx' hmono
      exact ⟨k, t, t', (Machine.runAll_cons _ _ s).trans ht, ht', hrest⟩
    · obtain ⟨hn, m, hmono⟩ := monotoneFrom_cons hmono
      obtain ⟨u, u', hu, hu', hsame, hout⟩ :=
        h.runEvent hs hn (evs ++ later) (evs.filter (fun e => !e.isTick) ++ later')
      obtain ⟨v, hv, hinv⟩ := hs.runEvent e (evs ++ later)
      cases hu.symm.trans hv
      obtain ⟨k, t, t', ht, ht', hrest⟩ := ih hinv (hsame.sameFrom m) (hout.tx_eq htx) hmono
      refine ⟨k, t, t', ?_, ?_, hrest⟩
      · rw [List.cons_append, Machine.runAll_cons, hu, andThen_next, ht]
      · rw [List.filter_cons_of_pos (by simp [hkept]), List.cons_append, Machine.runAll_cons, hu', andThen_next, ht']

end

end Sys2Proof.Machine

namespace Sys2Proof.Proofs

open Sys2Proof.Machine

/-- Settles O41: a proper first part leaves the rest of the frame missing, and the whole frame leaves nothing missing. -/
theorem fragmentationDoesNotMatter : Obligations.FragmentationDoesNotMatter := by
  intro p t0 evs s hs hst hp hevs
  constructor
  · intro more hmore hbytes
    obtain ⟨t, hrun, hout, hidle⟩ := runAll_part [] hs hst hp hmore hbytes hevs
    rw [List.append_nil] at hrun
    exact ⟨{ t with input := [] }, hrun, hidle, hout.tx.trans (List.append_nil _), hout.ghost.trans (List.append_nil _)⟩
  · intro hbytes
    obtain ⟨t, hrun, hidle, hout⟩ := runAll_encodeFrame [] hs.valid hst hp hevs hbytes
    rw [List.append_nil] at hrun
    exact ⟨{ t with input := [] }, hrun, hidle, hout.tx, hout.ghost⟩

/-- Settles O43: the old frame's deadline is that of its first byte, so the RX event finds it reached; from then on the block and
a block after reset are the same. -/
theorem recoveryIsIndependentOfTheOldFrame : Obligations.RecoveryIsIndependentOfTheOldFrame := by
  intro p more b t0 n e evs ticks later s hs hst hp hmore hbytes hne he hevs hticks hlate
  obtain ⟨u, s₀, hpart, hflight, hcfg, htx⟩ :=
    runAll_part_inFlight (ticks ++ .rx b n :: later) hs.valid hst hp hbytes hne he hevs
  obtain ⟨v, hquiet, hcfg', htx', hdl, hst'⟩ := runAll_ticks hticks (.rx b n :: later) u
  obtain ⟨hout, -⟩ := hflight.awaits.incomplete hmore
  have hreached : v.deadline ≤ n := by rw [hdl, hflight.deadline, hcfg]; exact hlate
  have hparams : (State.resetWith s.cfg).cfg = v.cfg := (hcfg'.trans (hout.cfg.trans hcfg)).symm
  have hsilent : v.tx = s.tx := by rw [htx', hout.tx, htx, List.append_nil]
  have hfresh : (State.resetWith s.cfg).SameFrom n v := sameFrom_of_fresh hparams (.inl rfl) (.inr hreached)
  have hreset : (State.resetWith s.cfg).Inv := inv_of_idle hs.valid rfl rfl
  obtain ⟨t', t, ht', ht, hsame, hout'⟩ :=
    hfresh.runAll_cons (e := .rx b n) hreset (fun m hm => by cases hm; exact le_rfl) later
  refine ⟨t, t', ?_, ht', hsame.symm, ?_⟩
  · rw [List.append_assoc, hpart, hquiet, ht]
  · obtain ⟨out, h', h⟩ | h := hout'
    · exact .inl ⟨out, hsilent ▸ h, h'⟩
    · exact .inr h.symm

/-- Settles O44: after each event the run without TICKs is in a state that no later event tells apart, and after an RX event, which
both runs take, in one with the same meaning. -/
theorem ticksDoNotChangeTheOutput : Obligations.TicksDoNotChangeTheOutput := by
  intro n evs s hs hmono
  have hrefl : s.SameFrom n s := State.SameMeaning.sameFrom ⟨rfl, rfl, fun _ => rfl, fun _ => rfl, fun _ => rfl,
    fun _ => rfl, fun _ _ _ => rfl⟩ n
  by_cases hlast : ∃ front e, evs = front ++ [e] ∧ e.isRx = true
  · obtain ⟨front, e, rfl, hrx⟩ := hlast
    have hkept : [e].filter (fun e => !e.isTick) = [e] := by
      cases e with
      | rx => rfl
      | _ => cases hrx
    obtain ⟨m, u, u', hu, hu', hinv, hsame, htx, hmono'⟩ := runAll_withoutTicks [e] [e] hs hrefl rfl hmono
    obtain ⟨t, t', ht, ht', hmeaning, hout⟩ := hsame.runAll_cons hinv (monotoneFrom_cons hmono').1 []
    rw [List.filter_append, hkept]
    exact ⟨t, t', hu.trans ht, hu'.trans ht', hout.tx_eq htx, fun _ => hmeaning⟩
  · obtain ⟨m, t, t', ht, ht', -, -, htx, -⟩ :=
      runAll_withoutTicks [] [] hs hrefl rfl ((List.append_nil evs).symm ▸ hmono)
    rw [List.append_nil] at ht ht'
    exact ⟨_, _, ht, ht', htx, fun h => absurd h hlast⟩

/-- Settles O42: the part puts nothing out and logs nothing, and the TICKs log the discard of its frame at most. -/
theorem strictPrefixIsSilent : Obligations.StrictPrefixIsSilent := by
  intro p more t0 evs ticks s hs hst hp hmore hbytes hevs hticks
  obtain ⟨u, hrun, hout, -⟩ := runAll_part ticks hs hst hp hmore hbytes hevs
  obtain ⟨t, hquiet, htx, hlog⟩ := runAll_ticks_log hticks u
  have hghost : u.ghost = s.ghost := hout.ghost.trans (List.append_nil _)
  rw [hghost] at hlog
  exact ⟨t, hrun.trans hquiet, htx.trans (hout.tx.trans (List.append_nil _)), hlog.imp (·.2) (·.2)⟩

/-- Settles O51: 100 ms of real time are at least `T_REASM` ticks, so this is Scenario C with no TICK between. -/
theorem recoveryWithinTheDocumentsTime : Obligations.RecoveryWithinTheDocumentsTime := by
  intro t0 t2 s hs hst hbound hperiod hwait
  unfold Config.MeetsDocumentRecovery at hbound
  have hticks : (t0 + s.cfg.tReasm) * s.cfg.tickPeriodUs ≤ t2 * s.cfg.tickPeriodUs :=
    calc (t0 + s.cfg.tReasm) * s.cfg.tickPeriodUs
        = t0 * s.cfg.tickPeriodUs + s.cfg.tReasm * s.cfg.tickPeriodUs := Nat.add_mul _ _ _
      _ ≤ t0 * s.cfg.tickPeriodUs + 100000 := Nat.add_le_add_left hbound _
      _ ≤ t2 * s.cfg.tickPeriodUs := hwait
  exact (scenarioCLossRecovery t0 t2 [] s hs hst nofun (Nat.le_of_mul_le_mul_right hticks hperiod)).2

end Sys2Proof.Proofs
end
